-- ==== Sys2Proof/Word.lean ====
section
/-! DEFINITION. The bit-vector types the spec treats as bits: bytes of the two memories, 16-bit fields, 32-bit
registers and descriptor words, and the 128-bit command descriptor (`00_scope.md` R12, `10_state.md` R22,
`30_encoding.md` R80). -/

namespace Sys2Proof

/-- One byte of the frame buffer or of tile space (R29, R30). -/
abbrev Byte := BitVec 8

/-- A 16-bit quantity: a coordinate, an offset, a size or a pixel value field (R81). -/
abbrev Half := BitVec 16

/-- A 32-bit register or descriptor word (R22, R80). -/
abbrev Word := BitVec 32

/-- A command descriptor D, with W0 = D[31:0] up to W3 = D[127:96] (R80). -/
abbrev Descriptor := BitVec 128

end Sys2Proof
end

