-- ==== Sys2Proof/Syntax.lean ====
section
/-! DEFINITION. The pixel formats and the fourteen commands of the opcode map (`30_encoding.md` R84, R86), each with the
descriptor fields its format reads (R82), in the order of the assembler syntax (R92). -/

namespace Sys2Proof

/-- The closed set of pixel formats (R2, R84). -/
inductive Format where
  | grey1
  | grey2
  | grey4
  | indexed8
  | rgb565
deriving DecidableEq, Repr

/-- One constructor per row of the opcode table. Operand codes stay as the descriptor has them: a reserved one is an
ordinary operand that the command answers with ILLEGAL or a skip (R89). -/
inductive Instr where
  /-- NOP (R110). -/
  | nop
  /-- INIT fmt, ocol, orow, vsw, vsh (R111). -/
  | init (fmt : Byte) (ocol orow vsw vsh : Half)
  /-- SETFMT fmt (R112). -/
  | setfmt (fmt : Byte)
  /-- SETVS ocol, orow, vsw, vsh (R113). -/
  | setvs (ocol orow vsw vsh : Half)
  /-- GETREG reg (R114). -/
  | getreg (idx : Byte)
  /-- POKE x, y, value (R130). -/
  | poke (x y value : Half)
  /-- PEEK x, y (R131). -/
  | peek (x y : Half)
  /-- CLEAR (R140). -/
  | clear
  /-- FILL value (R141). -/
  | fill (value : Half)
  /-- SPAN x, y, len, value (R142). -/
  | span (x y : Half) (len : Word) (value : Half)
  /-- BLIT x, y, side, tfmt, ptr (R160). -/
  | blit (x y : Half) (side tfmt : Byte) (ptr : Word)
  /-- BLITR x, y, side, tfmt, ptr, pat, repl (R161). -/
  | blitr (x y : Half) (side tfmt : Byte) (ptr : Word) (pat repl : Half)
  /-- SCRLR count (R190). -/
  | scrlr (count : Word)
  /-- SCRLC count (R191). -/
  | scrlc (count : Word)
deriving DecidableEq, Repr

end Sys2Proof
end

