-- ==== Sys2Proof/WellFormed.lean ====
section
/-! DEFINITION. The commands whose operand codes the spec defines: a program that wants no ILLEGAL answer holds only
these (`30_encoding.md` R84, R85, R89). Commands that fail the check still decode and still have their meaning. -/

namespace Sys2Proof

/-- A format code of R84: 0 to 4. -/
def Byte.isFormatCode (c : Byte) : Bool := decide (c.toNat ≤ 4)

/-- A register index of R85: 0 to 7. -/
def Byte.isRegIndex (c : Byte) : Bool := decide (c.toNat ≤ 7)

/-- No reserved operand code (R89). The tile format of BLIT and BLITR may be any code: a reserved one is an ordinary
mismatch (R163). -/
def Instr.wellFormed : Instr → Bool
  | .init fmt _ _ _ _ => Byte.isFormatCode fmt
  | .setfmt fmt => Byte.isFormatCode fmt
  | .getreg idx => Byte.isRegIndex idx
  | .nop => true
  | .setvs _ _ _ _ => true
  | .poke _ _ _ => true
  | .peek _ _ => true
  | .clear => true
  | .fill _ => true
  | .span _ _ _ _ => true
  | .blit _ _ _ _ _ => true
  | .blitr _ _ _ _ _ _ _ => true
  | .scrlr _ => true
  | .scrlc _ => true

end Sys2Proof
end

