-- ==== Sys2Proof/Decode.lean ====
section
/-! DEFINITION. From a descriptor to a command and back (`30_encoding.md` R80 to R93). Decoding is total: a reserved
opcode is rejected by name (R88), reserved bits are ignored (R90, log entry 9). -/

namespace Sys2Proof

/-! ## Fields of a descriptor (R81) -/

/-- OP, D[31:24]. -/
def Descriptor.op (d : Descriptor) : Byte := d.extractLsb' 24 8
/-- A8, D[23:16]: FMT, IDX or SIDE. -/
def Descriptor.a8 (d : Descriptor) : Byte := d.extractLsb' 16 8
/-- B8, D[15:8]: TFMT. -/
def Descriptor.b8 (d : Descriptor) : Byte := d.extractLsb' 8 8
/-- X or OCOL, D[47:32]. -/
def Descriptor.x (d : Descriptor) : Half := d.extractLsb' 32 16
/-- Y or OROW, D[63:48]. -/
def Descriptor.y (d : Descriptor) : Half := d.extractLsb' 48 16
/-- VALUE or VSW, D[79:64]. -/
def Descriptor.value (d : Descriptor) : Half := d.extractLsb' 64 16
/-- VSH, D[95:80]. -/
def Descriptor.vsh (d : Descriptor) : Half := d.extractLsb' 80 16
/-- PTR or COUNT, D[95:64]. -/
def Descriptor.w2 (d : Descriptor) : Word := d.extractLsb' 64 32
/-- LEN, D[127:96]. -/
def Descriptor.w3 (d : Descriptor) : Word := d.extractLsb' 96 32
/-- PAT, D[111:96]. -/
def Descriptor.pat (d : Descriptor) : Half := d.extractLsb' 96 16
/-- REPL, D[127:112]. -/
def Descriptor.repl (d : Descriptor) : Half := d.extractLsb' 112 16

/-! ## Operand codes (R84) -/

/-- The format a code names; none for the reserved codes 5 to 255. -/
def Format.ofCode (c : Byte) : Option Format :=
  match c.toNat with
  | 0 => some .grey1
  | 1 => some .grey2
  | 2 => some .grey4
  | 3 => some .indexed8
  | 4 => some .rgb565
  | _ => none

/-- The code of a format, the value of FORMAT.FMT. -/
def Format.code : Format → Byte
  | .grey1 => 0
  | .grey2 => 1
  | .grey4 => 2
  | .indexed8 => 3
  | .rgb565 => 4

/-! ## The opcode map (R86) -/

/-- The OP of a command. -/
def Instr.opcode : Instr → Byte
  | .nop => 0x00
  | .init _ _ _ _ _ => 0x01
  | .setfmt _ => 0x02
  | .setvs _ _ _ _ => 0x03
  | .getreg _ => 0x04
  | .poke _ _ _ => 0x10
  | .peek _ _ => 0x11
  | .clear => 0x20
  | .fill _ => 0x21
  | .span _ _ _ _ => 0x22
  | .blit _ _ _ _ _ => 0x30
  | .blitr _ _ _ _ _ _ _ => 0x31
  | .scrlr _ => 0x40
  | .scrlc _ => 0x41

/-- The fourteen opcodes that are not reserved (R86). -/
def definedOpcodes : List Byte :=
  [0x00, 0x01, 0x02, 0x03, 0x04, 0x10, 0x11, 0x20, 0x21, 0x22, 0x30, 0x31, 0x40, 0x41]

/-- Why a descriptor is no command. -/
inductive DecodeError where
  /-- OP is not in the opcode map (R88). -/
  | reservedOpcode (op : Byte)
deriving DecidableEq, Repr

/-- The command a descriptor carries: selected by OP alone (R86), fields at their fixed positions (R81, R82). -/
def decode (d : Descriptor) : Except DecodeError Instr :=
  if d.op = 0x00 then .ok .nop
  else if d.op = 0x01 then .ok (.init d.a8 d.x d.y d.value d.vsh)
  else if d.op = 0x02 then .ok (.setfmt d.a8)
  else if d.op = 0x03 then .ok (.setvs d.x d.y d.value d.vsh)
  else if d.op = 0x04 then .ok (.getreg d.a8)
  else if d.op = 0x10 then .ok (.poke d.x d.y d.value)
  else if d.op = 0x11 then .ok (.peek d.x d.y)
  else if d.op = 0x20 then .ok .clear
  else if d.op = 0x21 then .ok (.fill d.value)
  else if d.op = 0x22 then .ok (.span d.x d.y d.w3 d.value)
  else if d.op = 0x30 then .ok (.blit d.x d.y d.a8 d.b8 d.w2)
  else if d.op = 0x31 then .ok (.blitr d.x d.y d.a8 d.b8 d.w2 d.pat d.repl)
  else if d.op = 0x40 then .ok (.scrlr d.w2)
  else if d.op = 0x41 then .ok (.scrlc d.w2)
  else .error (.reservedOpcode d.op)

/-! ## The encoder (R93) -/

/-- Four words as a descriptor (R80). -/
def Descriptor.ofWords (w0 w1 w2 w3 : Word) : Descriptor := w3 ++ w2 ++ w1 ++ w0

/-- `W0 = OP << 24 | A8 << 16 | B8 << 8`, Z8 zero. -/
def Word.head (op a8 b8 : Byte) : Word := op ++ a8 ++ b8 ++ 0#8

/-- A word of two 16-bit fields: `Y << 16 | X`, `VSH << 16 | VSW`, `REPL << 16 | PAT`. -/
def Word.pair (hi lo : Half) : Word := hi ++ lo

/-- The descriptor of a command, every unused field zero. -/
def encode (i : Instr) : Descriptor :=
  match i with
  | .nop => .ofWords (.head i.opcode 0 0) 0 0 0
  | .init fmt ocol orow vsw vsh =>
    .ofWords (.head i.opcode fmt 0) (.pair orow ocol) (.pair vsh vsw) 0
  | .setfmt fmt => .ofWords (.head i.opcode fmt 0) 0 0 0
  | .setvs ocol orow vsw vsh =>
    .ofWords (.head i.opcode 0 0) (.pair orow ocol) (.pair vsh vsw) 0
  | .getreg idx => .ofWords (.head i.opcode idx 0) 0 0 0
  | .poke x y value => .ofWords (.head i.opcode 0 0) (.pair y x) (.pair 0 value) 0
  | .peek x y => .ofWords (.head i.opcode 0 0) (.pair y x) 0 0
  | .clear => .ofWords (.head i.opcode 0 0) 0 0 0
  | .fill value => .ofWords (.head i.opcode 0 0) 0 (.pair 0 value) 0
  | .span x y len value => .ofWords (.head i.opcode 0 0) (.pair y x) (.pair 0 value) len
  | .blit x y side tfmt ptr => .ofWords (.head i.opcode side tfmt) (.pair y x) ptr 0
  | .blitr x y side tfmt ptr pat repl =>
    .ofWords (.head i.opcode side tfmt) (.pair y x) ptr (.pair repl pat)
  | .scrlr count => .ofWords (.head i.opcode 0 0) 0 count 0
  | .scrlc count => .ofWords (.head i.opcode 0 0) 0 count 0

/-! ## Reserved bits (R82, R90) -/

/-- The descriptor bits a command's format reads (R82): ones at OP and at every field of the format. -/
def Instr.formatMask : Instr → Descriptor
  | .nop => .ofWords (.head 0xFF 0 0) 0 0 0
  | .init _ _ _ _ _ => .ofWords (.head 0xFF 0xFF 0) (.pair 0xFFFF 0xFFFF) (.pair 0xFFFF 0xFFFF) 0
  | .setfmt _ => .ofWords (.head 0xFF 0xFF 0) 0 0 0
  | .setvs _ _ _ _ => .ofWords (.head 0xFF 0 0) (.pair 0xFFFF 0xFFFF) (.pair 0xFFFF 0xFFFF) 0
  | .getreg _ => .ofWords (.head 0xFF 0xFF 0) 0 0 0
  | .poke _ _ _ => .ofWords (.head 0xFF 0 0) (.pair 0xFFFF 0xFFFF) (.pair 0 0xFFFF) 0
  | .peek _ _ => .ofWords (.head 0xFF 0 0) (.pair 0xFFFF 0xFFFF) 0 0
  | .clear => .ofWords (.head 0xFF 0 0) 0 0 0
  | .fill _ => .ofWords (.head 0xFF 0 0) 0 (.pair 0 0xFFFF) 0
  | .span _ _ _ _ => .ofWords (.head 0xFF 0 0) (.pair 0xFFFF 0xFFFF) (.pair 0 0xFFFF) (.pair 0xFFFF 0xFFFF)
  | .blit _ _ _ _ _ => .ofWords (.head 0xFF 0xFF 0xFF) (.pair 0xFFFF 0xFFFF) (.pair 0xFFFF 0xFFFF) 0
  | .blitr _ _ _ _ _ _ _ =>
    .ofWords (.head 0xFF 0xFF 0xFF) (.pair 0xFFFF 0xFFFF) (.pair 0xFFFF 0xFFFF) (.pair 0xFFFF 0xFFFF)
  | .scrlr _ => .ofWords (.head 0xFF 0 0) 0 (.pair 0xFFFF 0xFFFF) 0
  | .scrlc _ => .ofWords (.head 0xFF 0 0) 0 (.pair 0xFFFF 0xFFFF) 0

/-- Software writes the reserved bits as zero (R90): a descriptor of a defined command with no other bit set. -/
def Descriptor.isClean (d : Descriptor) : Bool :=
  match decode d with
  | .ok i => decide (d &&& ~~~ i.formatMask = 0)
  | .error _ => false

/-! ## The host's question -/

/-- The descriptor whose low `nbits` bits are those of `w` and whose other bits are zero. -/
def Descriptor.ofTable (nbits w : Nat) : Descriptor := BitVec.ofNat 128 (w % 2 ^ nbits)

/-- The command the decoder reads from a descriptor numbered as the opcode table numbers it, bit 0 being D[0] (R80). -/
def decodeTableWord (nbits w : Nat) : Option Instr :=
  match decode (Descriptor.ofTable nbits w) with
  | .ok i => some i
  | .error _ => none

end Sys2Proof
end

