-- ==== Sys2Proof/Config.lean ====
section
/-! DEFINITION. What one machine fixes: the parameters of `00_scope.md` R10, and the free values, constants without a
body of which no proof can know a value. -/

namespace Sys2Proof

/-- The parameters of R10 that the source leaves open (`93_implementation_defined.md` U18). `Config.legal`
(`Machine/Geometry.lean`) says which values R10 allows. -/
structure Config where
  /-- PHYS_W: physical width in pixels, the row stride of every command (R53). -/
  physW : Nat
  /-- PHYS_H: physical height in pixels. -/
  physH : Nat
  /-- CELL_W: glyph cell width in pixels, the unit of a column scroll. -/
  cellW : Nat
  /-- CELL_H: glyph cell height in pixels, the unit of a row scroll. -/
  cellH : Nat
  /-- BG: the background value; a format of width b uses its low b bits. -/
  bg : Half
deriving DecidableEq, Repr

/-- `CFG_T`, the test configuration of R11; not a value from the source (log entry 1). -/
def Config.cfgT : Config := { physW := 16, physH := 16, cellW := 8, cellH := 8, bg := 0 }

/-- FREE VALUE (log entry 4): what the frame buffer byte at an address holds after the reset of a given number, as
long as no command has written it. R231: unknown, not the same at two resets. -/
opaque Config.powerOnByte : Nat → Nat → Byte

/-- FREE VALUE (log entry 5): what the host placed at a tile-space address that the state does not list (R30, R34). -/
opaque Config.tileByte : Nat → Byte

/-- FREE VALUE (log entry 6): the display transport's answer to the bring-up request of a given number (R111, U13). -/
opaque Config.bringUp : Nat → Bool

end Sys2Proof
end

