-- ==== Sys2Proof/Machine/Geometry.lean ====
section
/-! DEFINITION. What follows from the parameters (`00_scope.md` R10, R11) and from a format (R18, `30_encoding.md` R84). -/

namespace Sys2Proof

/-! ## Formats -/

/-- `bpp(f)`: bits per pixel (R84). -/
def Format.bpp : Format → Nat
  | .grey1 => 1
  | .grey2 => 2
  | .grey4 => 4
  | .indexed8 => 8
  | .rgb565 => 16

/-- `ppb`: pixels per byte of a sub-byte format (R18). -/
def Format.ppb (f : Format) : Nat := 8 / f.bpp

/-- `pixmask(b) = 2^b - 1` (R18), on the 16 bits of a value field. -/
def Format.pixMask (f : Format) : Half := BitVec.ofNat 16 (2 ^ f.bpp - 1)

/-- `trunc_b(v)`: the low b bits of a value field (R13, R83). -/
def Format.trunc (f : Format) (v : Half) : Half := v &&& f.pixMask

/-! ## Parameters -/

/-- The constraints of R10. -/
def Config.legal (c : Config) : Bool :=
  decide (8 ≤ c.physW) && decide (c.physW ≤ 65528) && decide (c.physW % 8 = 0) &&
  decide (1 ≤ c.physH) && decide (c.physH ≤ 65535) &&
  decide (1 ≤ c.cellW) && decide (c.physW % c.cellW = 0) &&
  decide (1 ≤ c.cellH) && decide (c.physH % c.cellH = 0)

/-- FB_LEN: the frame buffer's length in bytes. -/
def Config.fbLen (c : Config) : Nat := c.physW * c.physH * 2

/-- EXTENT_PIX: the number of pixels of a format's extent. -/
def Config.extentPix (c : Config) : Nat := c.physW * c.physH

/-- EXTENT_BYTES(b): the bytes a format of width b uses. -/
def Config.extentBytes (c : Config) (b : Nat) : Nat := c.physW * c.physH * b / 8

/-- TOTAL_ROWS: cell rows on the screen. -/
def Config.totalRows (c : Config) : Nat := c.physH / c.cellH

/-- TOTAL_COLS: cell columns on the screen. -/
def Config.totalCols (c : Config) : Nat := c.physW / c.cellW

/-- PITCH: bytes in one GREY1 cell row (`44_scroll.md` R193). -/
def Config.pitch (c : Config) : Nat := c.cellH * c.physW / 8

/-- RBY: bytes in one GREY1 scanline (R193). -/
def Config.rby (c : Config) : Nat := c.physW / 8

end Sys2Proof
end

