-- ==== Sys2Proof/Machine/State.lean ====
section
/-! DEFINITION. The state of the PPK as plain data: the mutable registers of `10_state.md` R23 under their field names,
the two memories (R29, R30), the parameters (`00_scope.md` R10), and what stands at the ports (R31). There is no
general register, no program counter, no mode and no trap state, because the spec says the PPK has none
(R20, R21, R32, R215, R217). -/

namespace Sys2Proof.Machine

/-- The bytes of a memory that something has written, as (address, byte) pairs with strictly rising addresses. An
unlisted address holds no written value; what reading it gives is said where a memory is read (`State.fbByte`,
`State.tileRead`). -/
abbrev Memory := List Host.Cell

/-- The codes of STATUS.LAST (R27). The codes 5 to 255 are reserved and never produced, so they are no constructors. -/
inductive Code where
  /-- 0: the command did what its rule says. -/
  | ok
  /-- 1: the tile's format differs from the active format. -/
  | skipFormat
  /-- 2: a scroll while the active format is not GREY1. -/
  | skipNotGrey1
  /-- 3: reserved opcode, format code or register index. -/
  | illegal
  /-- 4: the display transport reported that bring-up failed. -/
  | initFail
deriving DecidableEq, Repr

/-- What one RSP transaction carries (R28, R31). -/
structure Response where
  code : Code
  result : Word
deriving DecidableEq, Repr

/-- What the host can do to the machine. -/
inductive HostInput where
  /-- Present a descriptor on CMD (R21, R31). -/
  | command (d : Descriptor)
  /-- Place a byte in tile space, which belongs to the host (R30, R74). -/
  | tile (addr : Word) (v : Byte)
  /-- Reset the block while no command is in flight (R230). -/
  | reset
  /-- Present a descriptor and reset the block before its response (R232). `reached` says whether the command had by then
  got to what it does outside the block's own registers and buffer: its bring-up request (R111), or an access at or above
  FB_LEN (R62). Log entry 15. -/
  | resetDuring (d : Descriptor) (reached : Bool)
deriving DecidableEq, Repr

/-- What the spec leaves undefined and the model stops on. -/
inductive Fault where
  /-- `UNDEFINED(out_of_buffer)` (R62, U1): a byte address at or above FB_LEN. Raised by POKE, PEEK, SPAN, BLIT and
  BLITR through `State.whenInside`, also when a reset abandons them after that access (`State.abandon`). Safe: the spec
  tells a model to fault here. -/
  | outOfBuffer
deriving DecidableEq, Repr

/-- What the model declines to run. -/
inductive Refusal where
  /-- An instruction without a meaning yet; raised only by an arm of `exec`. Safe. -/
  | notModelled (mnemonic : String)
  /-- The configuration breaks a constraint of R10 (U17); raised only by `step`, before anything runs. Safe: the spec
  tells a model to refuse such a configuration. -/
  | illegalConfig
deriving DecidableEq, Repr

/-- Everything the spec gives the machine, and what stands at its ports. -/
structure State where
  /-- The parameters of R10; PHYS, CELL and BGV are read-only views of them (R23). Log entry 1. -/
  cfg : Config
  /-- STATUS.INITED (R24). -/
  inited : Bool
  /-- STATUS.LAST (R27). -/
  last : Code
  /-- FORMAT.FMT, the active format (R25). -/
  fmt : Format
  /-- VS_OFF.COL (R26). -/
  vsCol : Half
  /-- VS_OFF.ROW (R26). -/
  vsRow : Half
  /-- VS_SIZE.W (R26). -/
  vsW : Half
  /-- VS_SIZE.H (R26). -/
  vsH : Half
  /-- RESULT (R28). -/
  result : Word
  /-- The frame buffer bytes written since the last reset (R29, R231). Log entry 4. -/
  fb : Memory
  /-- The tile-space bytes the model has been told of (R30). Log entry 5. -/
  tile : Memory
  /-- What the host is still to do, first thing first (R21). Log entry 3. -/
  inputs : List HostInput
  /-- The responses the host has received, first one first (R28). Log entry 7. -/
  rsp : List Response
  /-- The answers of the display transport that are known to come, next one first (R31, R111). Log entry 6. -/
  bru : List Bool
  /-- The model's own: how many bring-up requests were made; it numbers the free value `Config.bringUp`. Log entry 6. -/
  bruCount : Nat
  /-- The model's own: how many resets there were; it numbers the free value `Config.powerOnByte`. Log entry 4. -/
  epoch : Nat
deriving DecidableEq, Repr

/-- A machine with the given parameters right after its first reset (R34, R230): registers at their reset values,
nothing written, nothing presented, nothing answered. -/
def State.atReset (cfg : Config) : State :=
  { cfg := cfg
    inited := false
    last := .ok
    fmt := .grey1
    vsCol := 0
    vsRow := 0
    vsW := BitVec.ofNat 16 cfg.physW
    vsH := BitVec.ofNat 16 cfg.physH
    result := 0
    fb := []
    tile := []
    inputs := []
    rsp := []
    bru := []
    bruCount := 0
    epoch := 0 }

/-- The machine right after reset, with the spec's own test configuration for parameters (log entry 1). -/
def State.reset : State := State.atReset Config.cfgT

end Sys2Proof.Machine
end

