-- ==== Sys2Proof/Machine/Flags.lean ====
section
/-! DEFINITION. STATUS.LAST, the PPK's only flag (`10_state.md` R27), the two ways a command completes (`00_scope.md`
R17, R28), and the register file as GETREG reads it (R22). -/

namespace Sys2Proof.Machine

/-- The number of a status code (R27). -/
def Code.toByte : Code → Byte
  | .ok => 0
  | .skipFormat => 1
  | .skipNotGrey1 => 2
  | .illegal => 3
  | .initFail => 4

/-- `done(code)`: LAST takes the code, RESULT keeps its value, the response's result is 0 (R17, R28). -/
def State.done (s : State) (c : Code) : State :=
  { s with last := c, rsp := s.rsp ++ [{ code := c, result := 0 }] }

/-- `done(code, result)`: LAST takes the code, RESULT and the response take the result (R17, R28). -/
def State.doneWith (s : State) (c : Code) (r : Word) : State :=
  { s with last := c, result := r, rsp := s.rsp ++ [{ code := c, result := r }] }

/-- A 32-bit register of two 16-bit fields, `{hi, lo}`. -/
def halves (hi lo : Half) : Word := hi ++ lo

/-- STATUS: INITED in bit 0, LAST in bits 15 to 8, all else zero (R22). -/
def State.statusWord (s : State) : Word := 0#16 ++ s.last.toByte ++ 0#7 ++ BitVec.ofBool s.inited

/-- The value of register `idx` (R22, R85); none for the reserved indices 8 to 255. -/
def State.readReg (s : State) (idx : Byte) : Option Word :=
  match idx.toNat with
  | 0 => some s.statusWord
  | 1 => some (s.fmt.code.setWidth 32)
  | 2 => some (halves s.vsRow s.vsCol)
  | 3 => some (halves s.vsH s.vsW)
  | 4 => some (halves (BitVec.ofNat 16 s.cfg.physH) (BitVec.ofNat 16 s.cfg.physW))
  | 5 => some s.result
  | 6 => some (halves (BitVec.ofNat 16 s.cfg.cellH) (BitVec.ofNat 16 s.cfg.cellW))
  | 7 => some (s.cfg.bg.setWidth 32)
  | _ => none

end Sys2Proof.Machine
end

