-- ==== Sys2Proof/Machine/Operands.lean ====
section
/-! DEFINITION. From a command's operands to bits and addresses: virtual-screen translation (`20_memory.md` R54), linear
index and bit address (R55), the bit-range mask (R65), the expanded fill byte (`42_fill.md` R143). -/

namespace Sys2Proof

/-! ## Pixels (R55, R56) -/

/-- `L = py * PHYS_W + px`: the linear index of a physical coordinate (R55). -/
def Config.lin (c : Config) (px py : Nat) : Nat := py * c.physW + px

/-- `B = A div 8`: the byte of pixel L's first bit (R55). -/
def Format.pixByte (f : Format) (L : Nat) : Nat := L * f.bpp / 8

/-- `o = A mod 8`: the bit offset of pixel L in that byte, counted from bit 7 (R55). -/
def Format.pixOffset (f : Format) (L : Nat) : Nat := L * f.bpp % 8

/-- `sh = 8 - b - o`: how far a sub-byte pixel stands above bit 0 of its byte (R56). -/
def Format.pixShift (f : Format) (L : Nat) : Nat := 8 - f.bpp - f.pixOffset L

/-- The last byte a run of n pixels from linear index L touches, for n > 0: the byte of bit `(L + n) * b - 1`. -/
def Format.lastByte (f : Format) (L n : Nat) : Nat := ((L + n) * f.bpp - 1) / 8

/-! ## Masks and fill bytes (R65, R143) -/

/-- The bits of byte B that lie in the run of bit addresses `[a0, a1)` (R65). -/
def byteMask (B a0 a1 : Nat) : Byte :=
  let lo := max a0 (8 * B) - 8 * B
  let hi := min a1 (8 * B + 8) - 8 * B
  (0xFF#8 >>> lo) &&& (0xFF#8 <<< (8 - hi))

/-- `Expand_b(v)` of a sub-byte format (R143); for the byte formats the value's low byte. -/
def Format.expand (f : Format) (v : Half) : Byte :=
  match f with
  | .grey1 => if v = 1 then 0xFF else 0x00
  | .grey2 => v.setWidth 8 * 0x55
  | .grey4 => v.setWidth 8 * 0x11
  | .indexed8 => v.setWidth 8
  | .rgb565 => v.setWidth 8

/-- The byte a fill with value v stores at byte address a (R144): the expanded byte, the value itself, or for RGB565 the
value's low byte at even addresses and its high byte at odd ones. -/
def Format.fillByte (f : Format) (v : Half) (a : Nat) : Byte :=
  match f with
  | .grey1 => Format.expand .grey1 v
  | .grey2 => Format.expand .grey2 v
  | .grey4 => Format.expand .grey4 v
  | .indexed8 => v.setWidth 8
  | .rgb565 => if a % 2 = 0 then v.setWidth 8 else (v >>> 8).setWidth 8

end Sys2Proof

namespace Sys2Proof.Machine

/-! ## Coordinates (R54, R55) -/

/-- `px = cmd.X + reg.VS_OFF.COL`, exact (R54). -/
def State.px (s : State) (x : Half) : Nat := x.toNat + s.vsCol.toNat

/-- `py = cmd.Y + reg.VS_OFF.ROW`, exact (R54). -/
def State.py (s : State) (y : Half) : Nat := y.toNat + s.vsRow.toNat

/-- The linear index a command's coordinate names: R54, then R55. -/
def State.linIndex (s : State) (x y : Half) : Nat := s.cfg.lin (s.px x) (s.py y)

end Sys2Proof.Machine
end

