-- ==== Sys2Proof/Machine/Ops.lean ====
section
/-! DEFINITION. The named operations: the two memories (`00_scope.md` R15, R16), single pixels (`20_memory.md` R56), the
stop at the end of the buffer (R62), bring-up (`40_config.md` R111), reset (`70_reset_and_hazards.md` R230) and the
answer to a reserved opcode (`30_encoding.md` R88). There is no operation that takes an exception and none that returns
from one: the PPK has neither (`60_exceptions.md` R210, R215). -/

namespace Sys2Proof.Machine

/-- What a command or a step answers. -/
abbrev Answer := Host.Outcome State Fault Refusal

/-! ## A memory as data -/

/-- The byte written at an address, if one was. -/
def Memory.get? (m : Memory) (a : Nat) : Option Byte :=
  match m with
  | [] => none
  | c :: rest => if a = c.1 then some c.2 else Memory.get? rest a

/-- Write the bytes `f a, …, f (a + n - 1)` at addresses `a, …, a + n - 1`: the one way a memory changes. -/
def Memory.setRange (m : Memory) (a n : Nat) (f : Nat → Byte) : Memory :=
  m.filter (fun c => c.1 < a) ++ (List.range' a n).map (fun x => (x, f x)) ++
    m.filter (fun c => a + n ≤ c.1)

/-- The canonical form: addresses strictly rising, so that equal written bytes are equal data. -/
abbrev Memory.wf (m : Memory) : Prop := (m.map Prod.fst).Pairwise (· < ·)

/-- Every listed address is below a limit. -/
abbrev Memory.below (m : Memory) (lim : Nat) : Prop := ∀ c ∈ m, c.1 < lim

/-! ## The frame buffer (R15, R16, R29) -/

/-- `MemRead(a, 1)`: the byte last written at `a` since reset, else the free value of R231 (log entry 4). -/
def State.fbByte (s : State) (a : Nat) : Byte :=
  match s.fb.get? a with
  | some v => v
  | none => Config.powerOnByte s.epoch a

/-- `MemWrite` of the bytes `f a, …, f (a + n - 1)` at `a, …, a + n - 1`, all computed before the first is written. The
order of the writes is not architectural (R71, R193). -/
def State.writeRange (s : State) (a n : Nat) (f : Nat → Byte) : State :=
  { s with fb := s.fb.setRange a n f }

/-- `MemWrite(a, 1, v)`. -/
def State.memWrite (s : State) (a : Nat) (v : Byte) : State := s.writeRange a 1 (fun _ => v)

/-- The byte a masked write leaves (R16): bits under the mask from `d`, the others from `old`. -/
def mergeByte (old m d : Byte) : Byte :=
  if m = 0x00 then old
  else if m = 0xFF then d
  else (old &&& ~~~ m) ||| (d &&& m)

/-- `MaskedWrite(a, m, d)` (R16): an empty mask accesses nothing. -/
def State.maskedWrite (s : State) (a : Nat) (m d : Byte) : State :=
  if m = 0x00 then s else s.memWrite a (mergeByte (s.fbByte a) m d)

/-- `MaskedWrite(B, mask B, data B)` for the bytes `B` from `a` to `a + n - 1`, whose masks are not empty. -/
def State.maskedRun (s : State) (a n : Nat) (mask data : Nat → Byte) : State :=
  s.writeRange a n (fun B => mergeByte (s.fbByte B) (mask B) (data B))

/-- R62: a command whose last byte address is at or above FB_LEN has undefined behaviour and faults; otherwise it
completes in `t`. The addresses of a command are checked before any byte is written, so a fault leaves nothing behind
(log entry 11). -/
def State.whenInside (s : State) (lastByte : Nat) (t : State) : Answer :=
  if lastByte < s.cfg.fbLen then .next t else .fault .outOfBuffer

/-! ## Single pixels (R56) -/

/-- `PixRead(L)` under the active format, zero-extended to 16 bits. -/
def State.pixRead (s : State) (L : Nat) : Half :=
  match s.fmt with
  | .indexed8 => (s.fbByte L).setWidth 16
  | .rgb565 => s.fbByte (2 * L + 1) ++ s.fbByte (2 * L)
  | f => ((s.fbByte (f.pixByte L)).setWidth 16 >>> f.pixShift L) &&& f.pixMask

/-- `PixWrite(L, v)` under the active format. -/
def State.pixWrite (s : State) (L : Nat) (v : Half) : State :=
  match s.fmt with
  | .indexed8 => s.memWrite L (v.setWidth 8)
  | .rgb565 => (s.memWrite (2 * L) (v.setWidth 8)).memWrite (2 * L + 1) ((v >>> 8).setWidth 8)
  | f => s.maskedWrite (f.pixByte L) (f.pixMask.setWidth 8 <<< f.pixShift L) (v.setWidth 8 <<< f.pixShift L)

/-- Write `f a` at every byte of the active format's extent, all computed from the buffer as it was (R144, R193). -/
def State.writeExtent (s : State) (f : Nat → Byte) : State :=
  s.writeRange 0 (s.cfg.extentBytes s.fmt.bpp) f

/-- `FillExtent(v)` (R144). -/
def State.fillExtent (s : State) (v : Half) : State := s.writeExtent (s.fmt.fillByte v)

/-! ## Tile space (R15, R30) -/

/-- `TileRead(a)`, the address taken modulo 2^32 (R162): the byte the host placed there, else a free value
(log entry 5). -/
def State.tileRead (s : State) (a : Nat) : Byte :=
  match s.tile.get? (a % 2 ^ 32) with
  | some v => v
  | none => Config.tileByte (a % 2 ^ 32)

/-- The host places a byte in tile space (R74). -/
def State.placeTile (s : State) (addr : Word) (v : Byte) : State :=
  { s with tile := s.tile.setRange addr.toNat 1 (fun _ => v) }

/-! ## Bring-up (R111) -/

/-- The answer the display transport gives to the next bring-up request: the next one known to come, else a free draw
(log entry 6). -/
def State.bringUpAnswer (s : State) : Bool :=
  match s.bru with
  | ok :: _ => ok
  | [] => Config.bringUp s.bruCount

/-- One BRU transaction (R31). -/
def State.requestBringUp (s : State) : State :=
  { s with bru := s.bru.tail, bruCount := s.bruCount + 1 }

/-- `VS_OFF <- {row, col}`, `VS_SIZE <- {h, w}` (R111, R113). -/
def State.setVirtualScreen (s : State) (col row w h : Half) : State :=
  { s with vsCol := col, vsRow := row, vsW := w, vsH := h }

/-! ## Reset and reserved opcodes -/

/-- Reset (R230, R231): the registers take their reset values and the buffer is unspecified again. The parameters, tile
space, the host's plan, the responses already received and the transport are not the block's to reset. -/
def State.afterReset (s : State) : State :=
  { State.atReset s.cfg with
    tile := s.tile
    inputs := s.inputs
    rsp := s.rsp
    bru := s.bru
    bruCount := s.bruCount
    epoch := s.epoch + 1 }

/-- A descriptor with a reserved OP: no effect but `done(ILLEGAL)` (R88). -/
def State.reservedOpcode (s : State) : State := s.done .illegal

end Sys2Proof.Machine
end

