-- ==== Sys2Proof/Machine/Tile.lean ====
section
/-! DEFINITION. The blit datapath (`43_blit.md`): tile layout (R162), substitution stage (R173), alignment mux (R166),
row engine (R165) with the mask generator (R167) and the masked write (R168). -/

namespace Sys2Proof.Machine

/-- What the descriptor says of a tile whose format is the active one (R162). -/
structure Tile where
  fmt : Format
  /-- SIDE: pixels per row and rows. -/
  side : Nat
  /-- PTR: the tile-space address of the first byte. -/
  ptr : Word
deriving DecidableEq, Repr

/-- The stage between tile space and the alignment mux (R173): BLIT has `identity`, BLITR substitutes. -/
inductive Stage where
  | identity
  | subst (pat repl : Half)
deriving DecidableEq, Repr

/-- `identity(q)`, or `Subst(q) = r if q == p else q` (R161). -/
def Stage.apply (g : Stage) (q : Half) : Half :=
  match g with
  | .identity => q
  | .subst p r => if q = p then r else q

/-- `TP`: the tile row pitch in bytes (R162). -/
def Tile.pitch (T : Tile) : Nat := (T.side * T.fmt.bpp + 7) / 8

/-- `TileByte(j, k)`: byte k of tile row j (R162). -/
def State.tileByte (s : State) (T : Tile) (j k : Nat) : Byte :=
  s.tileRead (T.ptr.toNat + j * T.pitch + k)

/-- `TilePix(i, j)`: the pixel in column i of tile row j (R162), zero-extended to 16 bits. -/
def State.tilePix (s : State) (T : Tile) (i j : Nat) : Half :=
  match T.fmt with
  | .indexed8 => (s.tileByte T j i).setWidth 16
  | .rgb565 => s.tileByte T j (2 * i + 1) ++ s.tileByte T j (2 * i)
  | f =>
    ((s.tileByte T j (i / f.ppb)).setWidth 16 >>> (8 - f.bpp - (i % f.ppb) * f.bpp)) &&& f.pixMask

/-- The substitution stage on one byte of a sub-byte format: every pixel field of the byte (R173). -/
def Stage.onFields (g : Stage) (f : Format) (raw : Byte) : Byte :=
  (List.range f.ppb).foldl
    (fun out m =>
      let sh := 8 - f.bpp - m * f.bpp
      let q := (raw.setWidth 16 >>> sh) &&& f.pixMask
      out ||| ((g.apply q).setWidth 8 <<< sh))
    0

/-- `SrcByte(j, k, f)` (R173, R165): byte k of tile row j after the stage; 0 beyond the row's bytes. -/
def State.srcByte (s : State) (T : Tile) (g : Stage) (j k : Nat) : Byte :=
  if k < T.pitch then
    match g, T.fmt with
    | .identity, _ => s.tileByte T j k
    | .subst p r, .indexed8 => (Stage.apply (.subst p r) ((s.tileByte T j k).setWidth 16)).setWidth 8
    | .subst p r, .rgb565 =>
      let v := Stage.apply (.subst p r) (s.tilePix T (k / 2) j)
      if k % 2 = 0 then v.setWidth 8 else (v >>> 8).setWidth 8
    | .subst p r, f => Stage.onFields (.subst p r) f (s.tileByte T j k)
  else 0

/-- `AlignMux(j, d, o, f)`: the funnel shifter over source bytes d - 1 and d, none before the row's first (R166). -/
def State.alignMux (s : State) (T : Tile) (g : Stage) (j d o : Nat) : Byte :=
  let prev := if d = 0 then 0 else s.srcByte T g j (d - 1)
  let cur := s.srcByte T g j d
  (prev <<< (8 - o)) ||| (cur >>> o)

/-- `BlitRow(j, px, py, f)` (R165): whole bytes for the byte formats (R169), masked and aligned bytes for the others. -/
def State.blitRow (s : State) (T : Tile) (g : Stage) (px py j : Nat) : State :=
  let b := T.fmt.bpp
  let L0 := s.cfg.lin px (py + j)
  if 8 ≤ b then
    let B0 := L0 * b / 8
    s.writeRange B0 (T.side * b / 8) (fun a => s.srcByte T g j (a - B0))
  else
    let a0 := L0 * b
    let a1 := a0 + T.side * b
    let o := a0 % 8
    let B0 := a0 / 8
    let nd := (o + T.side * b + 7) / 8
    s.maskedRun B0 nd (fun B => byteMask B a0 a1) (fun B => s.alignMux T g j (B - B0) o)

/-- The first n rows of a blit, in ascending order (R160). -/
def State.blitRows (s : State) (T : Tile) (g : Stage) (px py : Nat) : Nat → State
  | 0 => s
  | j + 1 => (State.blitRows s T g px py j).blitRow T g px py j

/-- The last byte a blit of a tile with rows touches: the last byte of its last row. -/
def State.blitLastByte (s : State) (T : Tile) (px py : Nat) : Nat :=
  T.fmt.lastByte (s.cfg.lin px (py + (T.side - 1))) T.side

/-- BLIT and BLITR (R160, R161, R163): skipped on a format mismatch; nothing to do for SIDE = 0; else all rows, provided
every byte address is below FB_LEN (R62). -/
def State.blit (s : State) (x y : Half) (side tfmt : Byte) (ptr : Word) (g : Stage) : Answer :=
  if tfmt = s.fmt.code then
    let T : Tile := { fmt := s.fmt, side := side.toNat, ptr := ptr }
    if T.side = 0 then .next (s.done .ok)
    else
      s.whenInside (s.blitLastByte T (s.px x) (s.py y))
        ((s.blitRows T g (s.px x) (s.py y) T.side).done .ok)
  else .next (s.done .skipFormat)

end Sys2Proof.Machine
end

