-- ==== Sys2Proof/Machine/Blit.lean ====
section
/-! DEFINITION. Tile blit (`43_blit.md`): BLIT, BLITR. -/

namespace Sys2Proof.Machine

/-- BLIT (R160). -/
def execBlit (x y : Half) (side tfmt : Byte) (ptr : Word) (s : State) : Answer :=
  s.blit x y side tfmt ptr .identity

/-- BLITR (R161): PAT and REPL in the low bits of the active width. -/
def execBlitr (x y : Half) (side tfmt : Byte) (ptr : Word) (pat repl : Half) (s : State) : Answer :=
  s.blit x y side tfmt ptr (.subst (s.fmt.trunc pat) (s.fmt.trunc repl))

end Sys2Proof.Machine
end

