-- ==== Sys2Proof/Machine/Configure.lean ====
section
/-! DEFINITION. The configuration commands (`40_config.md`): NOP, INIT, SETFMT, SETVS, GETREG. None of them accesses a
memory. -/

namespace Sys2Proof.Machine

/-- NOP (R110). -/
def execNop (s : State) : Answer := .next (s.done .ok)

/-- The effect both successful paths of INIT share: INITED, format and virtual screen, answer 1 (R111). -/
def State.initialise (s : State) (f : Format) (ocol orow vsw vsh : Half) : State :=
  ({ s.setVirtualScreen ocol orow vsw vsh with inited := true, fmt := f }).doneWith .ok 1

/-- INIT (R111). The format code is checked before bring-up is asked for (R214); only a machine that is not yet
initialised asks, and a failed bring-up changes nothing but LAST and RESULT. -/
def execInit (fmt : Byte) (ocol orow vsw vsh : Half) (s : State) : Answer :=
  match Format.ofCode fmt with
  | none => .next (s.done .illegal)
  | some f =>
    .next
      (if s.inited then s.initialise f ocol orow vsw vsh
       else if s.bringUpAnswer then s.requestBringUp.initialise f ocol orow vsw vsh
       else s.requestBringUp.doneWith .initFail 0)

/-- SETFMT (R112): no buffer byte changes. -/
def execSetfmt (fmt : Byte) (s : State) : Answer :=
  match Format.ofCode fmt with
  | none => .next (s.done .illegal)
  | some f => .next (State.done { s with fmt := f } .ok)

/-- SETVS (R113): stored as given, without validation. -/
def execSetvs (ocol orow vsw vsh : Half) (s : State) : Answer :=
  .next ((s.setVirtualScreen ocol orow vsw vsh).done .ok)

/-- GETREG (R114): the register's value before this command. -/
def execGetreg (idx : Byte) (s : State) : Answer :=
  match s.readReg idx with
  | none => .next (s.done .illegal)
  | some v => .next (s.doneWith .ok v)

end Sys2Proof.Machine
end

