-- ==== Sys2Proof/Machine/Fill.lean ====
section
/-! DEFINITION. The fill engine (`42_fill.md`): CLEAR, FILL, SPAN. -/

namespace Sys2Proof.Machine

/-- CLEAR (R140): the extent of the active format takes the background value. -/
def execClear (s : State) : Answer := .next ((s.fillExtent (s.fmt.trunc s.cfg.bg)).done .ok)

/-- FILL (R141): the extent of the active format takes a pixel value. -/
def execFill (value : Half) (s : State) : Answer := .next ((s.fillExtent (s.fmt.trunc value)).done .ok)

/-- The writes of SPAN (R142): n pixels from linear index L take the value v. -/
def State.spanWrite (s : State) (L n : Nat) (v : Half) : State :=
  match s.fmt with
  | .indexed8 => s.writeRange L n (s.fmt.fillByte v)
  | .rgb565 => s.writeRange (2 * L) (2 * n) (s.fmt.fillByte v)
  | f =>
    let a0 := L * f.bpp
    let a1 := (L + n) * f.bpp
    s.maskedRun (a0 / 8) ((a1 - 1) / 8 + 1 - a0 / 8) (fun B => byteMask B a0 a1) (s.fmt.fillByte v)

/-- SPAN (R142). A zero length accesses nothing, wherever the coordinate is. -/
def execSpan (x y : Half) (len : Word) (value : Half) (s : State) : Answer :=
  if len.toNat = 0 then .next (s.done .ok)
  else
    s.whenInside (s.fmt.lastByte (s.linIndex x y) len.toNat)
      ((s.spanWrite (s.linIndex x y) len.toNat (s.fmt.trunc value)).done .ok)

end Sys2Proof.Machine
end

