-- ==== Sys2Proof/Machine/Pixel.lean ====
section
/-! DEFINITION. Single-pixel access (`41_pixel_access.md`): POKE, PEEK. Coordinates are relative to the virtual screen
and are not checked (R63). -/

namespace Sys2Proof.Machine

/-- POKE (R130). -/
def execPoke (x y value : Half) (s : State) : Answer :=
  s.whenInside (s.fmt.lastByte (s.linIndex x y) 1)
    ((s.pixWrite (s.linIndex x y) (s.fmt.trunc value)).done .ok)

/-- PEEK (R131). -/
def execPeek (x y : Half) (s : State) : Answer :=
  s.whenInside (s.fmt.lastByte (s.linIndex x y) 1)
    (s.doneWith .ok ((s.pixRead (s.linIndex x y)).setWidth 32))

end Sys2Proof.Machine
end

