-- ==== Sys2Proof/Machine/Scroll.lean ====
section
/-! DEFINITION. The scroll shifter (`44_scroll.md`): SCRLR, SCRLC. Both act on the whole GREY1 extent and assign it from
the buffer as it was (R193). -/

namespace Sys2Proof.Machine

/-- BGB: the byte of eight background pixels in GREY1 (R193). -/
def State.backgroundByte (s : State) : Byte := Format.expand .grey1 (Format.trunc .grey1 s.cfg.bg)

/-- The byte SCRLR leaves at address `a` of the extent (R190): the byte n cell rows further on, or background. -/
def State.rowScrolled (s : State) (n a : Nat) : Byte :=
  if a < (s.cfg.totalRows - n) * s.cfg.pitch then s.fbByte (a + n * s.cfg.pitch) else s.backgroundByte

/-- Byte k of the scanline that starts at `base`, background beyond its end (R191). -/
def State.lineByte (s : State) (base k : Nat) : Byte :=
  if k < s.cfg.rby then s.fbByte (base + k) else s.backgroundByte

/-- The byte SCRLC leaves at address `a` of the extent when it shifts by n pixels (R191): bits of two neighbouring bytes
of the same scanline. -/
def State.colScrolled (s : State) (n a : Nat) : Byte :=
  let base := a / s.cfg.rby * s.cfg.rby
  let k := a % s.cfg.rby
  let q := n / 8
  let r := n % 8
  if r = 0 then s.lineByte base (k + q)
  else (s.lineByte base (k + q) <<< r) ||| (s.lineByte base (k + q + 1) >>> (8 - r))

/-- What SCRLR and SCRLC share (R190 to R192): skipped outside GREY1, a clear when the count reaches the total, else a
rewrite of the extent. -/
def State.scroll (s : State) (count total : Nat) (f : Nat → Byte) : Answer :=
  if s.fmt = .grey1 then
    if total ≤ count then .next ((s.fillExtent (s.fmt.trunc s.cfg.bg)).done .ok)
    else .next ((s.writeExtent f).done .ok)
  else .next (s.done .skipNotGrey1)

/-- SCRLR (R190). -/
def execScrlr (count : Word) (s : State) : Answer :=
  s.scroll count.toNat s.cfg.totalRows (s.rowScrolled count.toNat)

/-- SCRLC (R191). -/
def execScrlc (count : Word) (s : State) : Answer :=
  s.scroll count.toNat s.cfg.totalCols (s.colScrolled (count.toNat * s.cfg.cellW))

end Sys2Proof.Machine
end

