-- ==== Sys2Proof/Machine/Dispatch.lean ====
section
/-! DEFINITION. One arm per command of the opcode map (`30_encoding.md` R86), each one direct call of its meaning. -/

namespace Sys2Proof.Machine

def exec (i : Instr) (s : State) : Host.Outcome State Fault Refusal :=
  match i with
  | .nop => Sys2Proof.Machine.execNop s
  | .init fmt ocol orow vsw vsh => Sys2Proof.Machine.execInit fmt ocol orow vsw vsh s
  | .setfmt fmt => Sys2Proof.Machine.execSetfmt fmt s
  | .setvs ocol orow vsw vsh => Sys2Proof.Machine.execSetvs ocol orow vsw vsh s
  | .getreg idx => Sys2Proof.Machine.execGetreg idx s
  | .poke x y value => Sys2Proof.Machine.execPoke x y value s
  | .peek x y => Sys2Proof.Machine.execPeek x y s
  | .clear => Sys2Proof.Machine.execClear s
  | .fill value => Sys2Proof.Machine.execFill value s
  | .span x y len value => Sys2Proof.Machine.execSpan x y len value s
  | .blit x y side tfmt ptr => Sys2Proof.Machine.execBlit x y side tfmt ptr s
  | .blitr x y side tfmt ptr pat repl => Sys2Proof.Machine.execBlitr x y side tfmt ptr pat repl s
  | .scrlr count => Sys2Proof.Machine.execScrlr count s
  | .scrlc count => Sys2Proof.Machine.execScrlc count s

end Sys2Proof.Machine
end

