-- ==== Sys2Proof/Machine/Port.lean ====
section
/-! DEFINITION. What the machine does with one thing the host does to it: a descriptor on CMD, a byte placed in tile
space, a reset between commands or during one (`10_state.md` R31, `20_memory.md` R74, `70_reset_and_hazards.md` R230,
R232). -/

namespace Sys2Proof.Machine

/-- One command, run to completion (R21, R70): the opcode is checked first (R214), a reserved one is ILLEGAL (R88). -/
def State.runDescriptor (s : State) (d : Descriptor) : Answer :=
  match decode d with
  | .ok i => exec i s
  | .error _ => .next s.reservedOpcode

/-- A command that a reset abandons (R232, log entry 15): no response is sent for it, the registers take their reset
values, and of what it had done only a bring-up request survives, because what the buffer holds is unspecified after any
reset (R231). If it had reached an access at or above FB_LEN its behaviour is undefined (R62). -/
def State.abandon (s : State) (d : Descriptor) (reached : Bool) : Answer :=
  if reached then
    match s.runDescriptor d with
    | .next t => .next (State.afterReset { t with rsp := s.rsp })
    | .fault f => .fault f
    | .refused r => .refused r
  else .next s.afterReset

/-- The machine's answer to one input. -/
def State.accept (s : State) (inp : HostInput) : Answer :=
  match inp with
  | .command d => s.runDescriptor d
  | .tile addr v => .next (s.placeTile addr v)
  | .reset => .next s.afterReset
  | .resetDuring d reached => s.abandon d reached

/-- `s` with a descriptor as the next thing the host does. -/
def State.present (s : State) (d : Descriptor) : State :=
  { s with inputs := .command d :: s.inputs }

end Sys2Proof.Machine
end

