-- ==== Sys2Proof/Machine/Step.lean ====
section
/-! DEFINITION. One step: the next thing the host does, or idling when it does nothing (`10_state.md` R21,
`60_exceptions.md` R221). -/

namespace Sys2Proof.Machine

/-- One step. A configuration that breaks R10 is refused before anything runs (U17, log entry 2); with nothing
presented the machine idles and holds its state (R221, log entry 3). -/
def step (s : State) : Host.Outcome State Fault Refusal :=
  if s.cfg.legal then
    match s.inputs with
    | [] => .next s
    | inp :: rest => State.accept { s with inputs := rest } inp
  else .refused .illegalConfig

/-- `s` with the descriptor whose low `nbits` bits are those of `w` presented next on CMD. -/
def State.withFetchWord (s : State) (nbits w : Nat) : State := s.present (Descriptor.ofTable nbits w)

end Sys2Proof.Machine
end

