-- ==== Sys2Proof/Safety.lean ====
section
/-! DEFINITION. What counts as a safe command and as a sound state, in the terms claims use: which commands stay inside
the buffer (`20_memory.md` R62), the host's duty to stay on the screen (`70_reset_and_hazards.md` R245), the invariant
of the two memories, and how two answers are compared. -/

namespace Sys2Proof.Machine

/-! ## Staying inside the buffer (R62, U1) -/

/-- A tile that is skipped, is empty, or whose last row ends below FB_LEN. -/
def State.tileInBuffer (s : State) (x y : Half) (side tfmt : Byte) : Bool :=
  decide (tfmt ≠ s.fmt.code) || decide (side = 0) ||
    decide (s.fmt.lastByte (s.cfg.lin (s.px x) (s.py y + (side.toNat - 1))) side.toNat < s.cfg.fbLen)

/-- Every byte address the command computes is below FB_LEN: the premise under which it completes. A skipped or empty
command computes none (R214). -/
def State.inBuffer (s : State) (i : Instr) : Bool :=
  match i with
  | .nop => true
  | .init _ _ _ _ _ => true
  | .setfmt _ => true
  | .setvs _ _ _ _ => true
  | .getreg _ => true
  | .poke x y _ => decide (s.fmt.lastByte (s.linIndex x y) 1 < s.cfg.fbLen)
  | .peek x y => decide (s.fmt.lastByte (s.linIndex x y) 1 < s.cfg.fbLen)
  | .clear => true
  | .fill _ => true
  | .span x y len _ =>
    decide (len = 0) || decide (s.fmt.lastByte (s.linIndex x y) len.toNat < s.cfg.fbLen)
  | .blit x y side tfmt _ => s.tileInBuffer x y side tfmt
  | .blitr x y side tfmt _ _ _ => s.tileInBuffer x y side tfmt
  | .scrlr _ => true
  | .scrlc _ => true

/-! ## Staying on the screen (R26, R245) -/

/-- "offset + size must fit inside the physical buffer's pixel extent" (R26): the host's duty, not a check. -/
def State.screenFits (s : State) : Bool :=
  decide (s.vsCol.toNat + s.vsW.toNat ≤ s.cfg.physW) && decide (s.vsRow.toNat + s.vsH.toNat ≤ s.cfg.physH)

/-- A w by h block of pixels at (x, y) lies inside the virtual screen (R245). -/
def State.onScreen (s : State) (x y : Half) (w h : Nat) : Bool :=
  decide (x.toNat + w ≤ s.vsW.toNat) && decide (y.toNat + h ≤ s.vsH.toNat)

/-- What a host that respects R245 issues: coordinates, spans and tiles inside the virtual screen. -/
def State.hostInBounds (s : State) (i : Instr) : Bool :=
  match i with
  | .nop => true
  | .init _ _ _ _ _ => true
  | .setfmt _ => true
  | .setvs _ _ _ _ => true
  | .getreg _ => true
  | .poke x y _ => s.onScreen x y 1 1
  | .peek x y => s.onScreen x y 1 1
  | .clear => true
  | .fill _ => true
  | .span x y len _ => s.onScreen x y len.toNat 1
  | .blit x y side _ _ => s.onScreen x y side.toNat side.toNat
  | .blitr x y side _ _ _ _ => s.onScreen x y side.toNat side.toNat
  | .scrlr _ => true
  | .scrlc _ => true

/-! ## Sound states -/

/-- What every step keeps: both memories in canonical form, the frame buffer's bytes below FB_LEN (R29, R62), tile
space's below 2^32 (R30). -/
structure State.Inv (s : State) : Prop where
  fb_wf : s.fb.wf
  fb_below : s.fb.below s.cfg.fbLen
  tile_wf : s.tile.wf
  tile_below : s.tile.below (2 ^ 32)

/-! ## The pixel view of a blit (R57, R160, R161) -/

/-- Pixel L belongs to row j of a tile drawn at (px, py). -/
def State.inTileRow (s : State) (T : Tile) (px py j L : Nat) : Prop :=
  s.cfg.lin px (py + j) ≤ L ∧ L < s.cfg.lin px (py + j) + T.side

/-- Byte a holds pixels of row j of a tile drawn at (px, py). -/
def State.inTileRowBytes (s : State) (T : Tile) (px py j a : Nat) : Prop :=
  T.fmt.pixByte (s.cfg.lin px (py + j)) ≤ a ∧ a ≤ T.fmt.lastByte (s.cfg.lin px (py + j)) T.side

/-- The reference semantics of a blit from `s` to `t`: every tile pixel q stands as `f q` where it was drawn unless a
later row was drawn over it (which needs SIDE > PHYS_W, R160 corner case c); a pixel that no row covers is as it was, and
so is a byte that holds none of the tile's pixels. -/
def State.drawsTile (s t : State) (T : Tile) (f : Half → Half) (px py : Nat) : Prop :=
  (∀ i j, i < T.side → j < T.side →
    (∀ k, j < k → k < T.side → ¬ s.inTileRow T px py k (s.cfg.lin px (py + j) + i)) →
      t.pixRead (s.cfg.lin px (py + j) + i) = f (s.tilePix T i j)) ∧
  (∀ L, (∀ j, j < T.side → ¬ s.inTileRow T px py j L) → t.pixRead L = s.pixRead L) ∧
  (∀ a, (∀ j, j < T.side → ¬ s.inTileRowBytes T px py j a) → t.fbByte a = s.fbByte a)

/-! ## Comparing answers -/

/-- The command issued n times in a row, as long as it completes. -/
def execTimes (i : Instr) : Nat → State → Answer
  | 0, s => .next s
  | n + 1, s =>
    match exec i s with
    | .next t => execTimes i n t
    | .fault r => .fault r
    | .refused r => .refused r

/-- An answer with its next state, if it has one, seen through `f`. -/
def Answer.mapNext (f : State → State) (a : Answer) : Answer :=
  match a with
  | .next t => .next (f t)
  | .fault r => .fault r
  | .refused r => .refused r

/-- Two states whose frame buffers read alike at every byte. -/
def State.sameBuffer (s t : State) : Prop := ∀ a, s.fbByte a = t.fbByte a

end Sys2Proof.Machine
end

