-- ==== Sys2Proof/Certificates/Slice0/Obligations.lean ====
section
/-! DEFINITION. The statements for the provers, in the order of `OBLIGATIONS.json`. Each docstring names the rules of
spec/ it formalises; where a clause is the model's own choice it names the log entry. -/

open Sys2Proof Sys2Proof.Machine

/-! ## Encoding (`30_encoding.md`) -/

/-- R80, R81, R82, R93: decoding the descriptor of any command, well-formed or not, gives the command back. -/
def Obligations.DecodeEncodeRoundTrip : Prop :=
  ∀ i : Instr, decode (encode i) = .ok i

/-- R82, R90, R93: the encoding of a decoded command is the descriptor with its reserved bits cleared, so a descriptor
whose reserved bits are zero is the only one of its command. -/
def Obligations.EncodeDecodeKeepsFormatBits : Prop :=
  ∀ (d : Descriptor) (i : Instr), decode d = .ok i → encode i = d &&& i.formatMask

/-- R90 (log entry 9): two descriptors that differ only in bits outside the command's format are the same command and
behave identically. -/
def Obligations.ReservedBitsIgnored : Prop :=
  ∀ (d e : Descriptor) (i : Instr), decode d = .ok i → e &&& i.formatMask = d &&& i.formatMask →
    decode e = .ok i ∧ ∀ s : State, s.runDescriptor e = s.runDescriptor d

/-- R86: OP alone selects the command, and exactly the opcodes outside the map are rejected. -/
def Obligations.OpcodeSelectsCommand : Prop :=
  ∀ d : Descriptor,
    (decode d = .error (.reservedOpcode d.op) ↔ d.op ∉ definedOpcodes) ∧
    (d.op ∈ definedOpcodes → ∃ i, decode d = .ok i) ∧
    ∀ i, decode d = .ok i → i.opcode = d.op

/-- `95_test_vectors.md` part 2 E: the spec's own assembled words, and BLIT with a non-zero Z8. -/
def Obligations.SpecWordsDecode : Prop :=
  decode (.ofWords 0x01040000 0x00010002 0x00080008 0) = .ok (.init 4 2 1 8 8) ∧
  decode (.ofWords 0x02020000 0 0 0) = .ok (.setfmt 2) ∧
  decode (.ofWords 0x03000000 0x00040008 0x00080008 0) = .ok (.setvs 8 4 8 8) ∧
  decode (.ofWords 0x04070000 0 0 0) = .ok (.getreg 7) ∧
  decode (.ofWords 0x10000000 0x00000005 0x00000002 0) = .ok (.poke 5 0 2) ∧
  decode (.ofWords 0x11000000 0x00000007 0 0) = .ok (.peek 7 0) ∧
  decode (.ofWords 0x22000000 0x00000003 0x00000001 0x0000000A) = .ok (.span 3 0 10 1) ∧
  decode (.ofWords 0x300800FF 0x00000003 0x00001000 0) = .ok (.blit 3 0 8 0 0x1000) ∧
  decode (.ofWords 0x31030200 0x00020001 0x00002000 0x000E0001) = .ok (.blitr 1 2 3 2 0x2000 1 0xE) ∧
  decode (.ofWords 0x41000000 0 0x00000001 0) = .ok (.scrlc 1)

/-- R84: the codes 0 to 4 name the five formats, `bpp(f) = 2^f`, with the pixels per byte of the table; the codes 5 to
255 name none. -/
def Obligations.FormatCodes : Prop :=
  Format.ofCode 0 = some .grey1 ∧ Format.ofCode 1 = some .grey2 ∧ Format.ofCode 2 = some .grey4 ∧
  Format.ofCode 3 = some .indexed8 ∧ Format.ofCode 4 = some .rgb565 ∧
  (∀ c : Byte, (Format.ofCode c).map Format.bpp = if c.toNat ≤ 4 then some (2 ^ c.toNat) else none) ∧
  (∀ f : Format, Format.ofCode f.code = some f) ∧
  Format.ppb .grey1 = 8 ∧ Format.ppb .grey2 = 4 ∧ Format.ppb .grey4 = 2 ∧ Format.ppb .indexed8 = 1

/-- R88: the reserved opcodes are these ranges, and a descriptor with one completes with ILLEGAL and nothing else: no
memory, no register but STATUS.LAST. -/
def Obligations.ReservedOpcodeIsIllegal : Prop :=
  (∀ op : Byte, op ∉ definedOpcodes ↔
    (0x05 ≤ op.toNat ∧ op.toNat ≤ 0x0F) ∨ (0x12 ≤ op.toNat ∧ op.toNat ≤ 0x1F) ∨
    (0x23 ≤ op.toNat ∧ op.toNat ≤ 0x2F) ∨ (0x32 ≤ op.toNat ∧ op.toNat ≤ 0x3F) ∨
    (0x42 ≤ op.toNat ∧ op.toNat ≤ 0xFF)) ∧
  ∀ (s : State) (d : Descriptor) (rest : List HostInput),
    s.cfg.legal = true → s.inputs = .command d :: rest → d.op ∉ definedOpcodes →
      step s = .next { s with inputs := rest, last := .illegal, rsp := s.rsp ++ [⟨.illegal, 0⟩] }

/-! ## Reset and the step -/

/-- R230: after reset every mutable register holds its reset value, nothing is in flight, no response is pending, and
the machine idles until something is presented. That reset leaves the host's plan empty and that a step then holds the
state is the model's choice of log entry 3, and that responses are a list which reset leaves empty that of log entry 7. -/
def Obligations.ResetValues : Prop :=
  ∀ cfg : Config,
    let r := State.atReset cfg
    r.readReg 0 = some 0 ∧ r.readReg 1 = some 0 ∧ r.readReg 2 = some 0 ∧
    r.readReg 3 = some (halves (BitVec.ofNat 16 cfg.physH) (BitVec.ofNat 16 cfg.physW)) ∧
    r.readReg 5 = some 0 ∧
    r.inited = false ∧ r.last = .ok ∧ r.fmt = .grey1 ∧ r.inputs = [] ∧ r.rsp = [] ∧
    (cfg.legal = true → step r = .next r)

/-- R230, R231 (log entries 4 and 15): a reset between commands puts every register at its reset value and makes every
frame buffer byte unspecified anew; parameters, tile space, the host's plan, the responses received and the transport
stay. -/
def Obligations.ResetInputResets : Prop :=
  ∀ (s : State) (rest : List HostInput), s.cfg.legal = true → s.inputs = .reset :: rest →
    ∃ t, step s = .next t ∧
      t = { State.atReset s.cfg with
            tile := s.tile, inputs := rest, rsp := s.rsp, bru := s.bru, bruCount := s.bruCount,
            epoch := s.epoch + 1 } ∧
      ∀ a, t.fbByte a = Config.powerOnByte (s.epoch + 1) a

/-- The invariant of the memories holds right after reset, whatever the parameters. -/
def Obligations.InvariantAtReset : Prop :=
  ∀ cfg : Config, (State.atReset cfg).Inv ∧ State.reset.Inv

/-- R29, R30, R62: every step keeps both memories in canonical form and inside their address ranges. -/
def Obligations.StepKeepsInvariant : Prop :=
  ∀ s t : State, s.Inv → step s = .next t → t.Inv

/-- R21, R70: when the next thing presented is a descriptor that decodes to a command, the step takes it off the CMD
port and is that command's execution. -/
def Obligations.StepRunsDecodedCommand : Prop :=
  ∀ (s : State) (d : Descriptor) (rest : List HostInput) (i : Instr),
    s.cfg.legal = true → s.inputs = .command d :: rest → decode d = .ok i →
      step s = exec i { s with inputs := rest }

/-- R221 (log entry 3): with nothing presented the machine is idle and holds its state. -/
def Obligations.IdleHoldsState : Prop :=
  ∀ s : State, s.cfg.legal = true → s.inputs = [] → step s = .next s

/-- R10 (U17, log entry 2): a step is refused for its configuration exactly when a constraint of R10 is broken. -/
def Obligations.IllegalConfigurationRefused : Prop :=
  ∀ s : State, step s = .refused .illegalConfig ↔
    ¬ (8 ≤ s.cfg.physW ∧ s.cfg.physW ≤ 65528 ∧ s.cfg.physW % 8 = 0 ∧ 1 ≤ s.cfg.physH ∧ s.cfg.physH ≤ 65535 ∧
       1 ≤ s.cfg.cellW ∧ s.cfg.physW % s.cfg.cellW = 0 ∧ 1 ≤ s.cfg.cellH ∧ s.cfg.physH % s.cfg.cellH = 0)

/-- R74 (log entry 5): a tile byte the host changes between commands is what a later read of tile space gives. -/
def Obligations.TileBytePlaced : Prop :=
  ∀ (s : State) (addr : Word) (v : Byte) (rest : List HostInput),
    s.cfg.legal = true → s.inputs = .tile addr v :: rest →
      ∃ t, step s = .next t ∧ t = { s with inputs := rest, tile := t.tile } ∧
        ∀ a, t.tileRead a = if a % 2 ^ 32 = addr.toNat then v else s.tileRead a

/-! ## Configuration commands (`40_config.md`) -/

/-- R110: NOP, which the all-zero descriptor is, changes LAST alone and answers OK. -/
def Obligations.NopEffect : Prop :=
  (∀ d : Descriptor, d.op = 0x00 → decode d = .ok .nop) ∧ decode 0 = .ok .nop ∧
  ∀ s : State, exec .nop s = .next { s with last := .ok, rsp := s.rsp ++ [⟨.ok, 0⟩] }

/-- R111: the four outcomes of INIT. `bringUpAnswer`, `bru` and `bruCount`, which give the transport's answers and count
the requests, are the model's choice of log entry 6; the result 0 of the ILLEGAL response is deduced (log entry 16). -/
def Obligations.InitEffect : Prop :=
  (∀ d : Descriptor, d.op = 0x01 → decode d = .ok (.init d.a8 d.x d.y d.value d.vsh)) ∧
  ∀ (s : State) (fmt : Byte) (ocol orow vsw vsh : Half),
    (4 < fmt.toNat → exec (.init fmt ocol orow vsw vsh) s =
      .next { s with last := .illegal, rsp := s.rsp ++ [⟨.illegal, 0⟩] }) ∧
    ∀ f : Format, Format.ofCode fmt = some f →
      (s.inited = true → exec (.init fmt ocol orow vsw vsh) s =
        .next { s with fmt := f, vsCol := ocol, vsRow := orow, vsW := vsw, vsH := vsh, last := .ok, result := 1,
                       rsp := s.rsp ++ [⟨.ok, 1⟩] }) ∧
      (s.inited = false → s.bringUpAnswer = true → exec (.init fmt ocol orow vsw vsh) s =
        .next { s with inited := true, fmt := f, vsCol := ocol, vsRow := orow, vsW := vsw, vsH := vsh, last := .ok,
                       result := 1, rsp := s.rsp ++ [⟨.ok, 1⟩], bru := s.bru.tail, bruCount := s.bruCount + 1 }) ∧
      (s.inited = false → s.bringUpAnswer = false → exec (.init fmt ocol orow vsw vsh) s =
        .next { s with last := .initFail, result := 0, rsp := s.rsp ++ [⟨.initFail, 0⟩], bru := s.bru.tail,
                       bruCount := s.bruCount + 1 })

/-- R112: SETFMT sets the active format or answers ILLEGAL; no buffer byte and no other register changes. -/
def Obligations.SetfmtEffect : Prop :=
  (∀ d : Descriptor, d.op = 0x02 → decode d = .ok (.setfmt d.a8)) ∧
  ∀ (s : State) (fmt : Byte),
    (4 < fmt.toNat → exec (.setfmt fmt) s =
      .next { s with last := .illegal, rsp := s.rsp ++ [⟨.illegal, 0⟩] }) ∧
    ∀ f : Format, Format.ofCode fmt = some f →
      exec (.setfmt fmt) s = .next { s with fmt := f, last := .ok, rsp := s.rsp ++ [⟨.ok, 0⟩] }

/-- R113: SETVS stores any four 16-bit values. -/
def Obligations.SetvsEffect : Prop :=
  (∀ d : Descriptor, d.op = 0x03 → decode d = .ok (.setvs d.x d.y d.value d.vsh)) ∧
  ∀ (s : State) (ocol orow vsw vsh : Half), exec (.setvs ocol orow vsw vsh) s =
    .next { s with vsCol := ocol, vsRow := orow, vsW := vsw, vsH := vsh, last := .ok,
                   rsp := s.rsp ++ [⟨.ok, 0⟩] }

/-- R114: GETREG answers with the register's value before the command, or ILLEGAL for the indices 8 to 255; the
result 0 of the ILLEGAL response is deduced (log entry 16). -/
def Obligations.GetregEffect : Prop :=
  (∀ d : Descriptor, d.op = 0x04 → decode d = .ok (.getreg d.a8)) ∧
  ∀ (s : State) (idx : Byte),
    (7 < idx.toNat → exec (.getreg idx) s =
      .next { s with last := .illegal, rsp := s.rsp ++ [⟨.illegal, 0⟩] }) ∧
    (idx.toNat ≤ 7 → ∃ v, s.readReg idx = some v ∧ exec (.getreg idx) s =
      .next { s with last := .ok, result := v, rsp := s.rsp ++ [⟨.ok, v⟩] })

/-- R22, R27: the register file bit by bit, with the numbers of the status codes. -/
def Obligations.RegisterMap : Prop :=
  (∀ c : Code, c.toByte.toNat ≤ 4) ∧
  Code.toByte .ok = 0 ∧ Code.toByte .skipFormat = 1 ∧ Code.toByte .skipNotGrey1 = 2 ∧ Code.toByte .illegal = 3 ∧
  Code.toByte .initFail = 4 ∧
  ∀ s : State, ∃ w0 w1 w2 w3 w4 w6 w7 : Word,
    s.readReg 0 = some w0 ∧ w0.extractLsb' 0 1 = BitVec.ofBool s.inited ∧ w0.extractLsb' 1 7 = 0 ∧
      w0.extractLsb' 8 8 = s.last.toByte ∧ w0.extractLsb' 16 16 = 0 ∧
    s.readReg 1 = some w1 ∧ w1.extractLsb' 0 8 = s.fmt.code ∧ w1.extractLsb' 8 24 = 0 ∧
    s.readReg 2 = some w2 ∧ w2.extractLsb' 0 16 = s.vsCol ∧ w2.extractLsb' 16 16 = s.vsRow ∧
    s.readReg 3 = some w3 ∧ w3.extractLsb' 0 16 = s.vsW ∧ w3.extractLsb' 16 16 = s.vsH ∧
    s.readReg 4 = some w4 ∧ w4.extractLsb' 0 16 = BitVec.ofNat 16 s.cfg.physW ∧
      w4.extractLsb' 16 16 = BitVec.ofNat 16 s.cfg.physH ∧
    s.readReg 5 = some s.result ∧
    s.readReg 6 = some w6 ∧ w6.extractLsb' 0 16 = BitVec.ofNat 16 s.cfg.cellW ∧
      w6.extractLsb' 16 16 = BitVec.ofNat 16 s.cfg.cellH ∧
    s.readReg 7 = some w7 ∧ w7.extractLsb' 0 16 = s.cfg.bg ∧ w7.extractLsb' 16 16 = 0 ∧
    ∀ idx : Byte, 7 < idx.toNat → s.readReg idx = none

/-! ## What any command may write -/

/-- R22 to R30: no command but those the spec names writes a register, the buffer or a port's state; none writes tile
space, the parameters or the host's plan. -/
def Obligations.OnlyNamedCommandsWrite : Prop :=
  ∀ (i : Instr) (s t : State), exec i s = .next t →
    (t.inited ≠ s.inited → i.opcode = 0x01 ∧ t.inited = true) ∧
    (t.fmt ≠ s.fmt → i.opcode ∈ [0x01, 0x02]) ∧
    ((t.vsCol, t.vsRow, t.vsW, t.vsH) ≠ (s.vsCol, s.vsRow, s.vsW, s.vsH) → i.opcode ∈ [0x01, 0x03]) ∧
    (t.result ≠ s.result → i.opcode ∈ [0x01, 0x04, 0x11]) ∧
    (t.fb ≠ s.fb → i.opcode ∈ [0x10, 0x20, 0x21, 0x22, 0x30, 0x31, 0x40, 0x41]) ∧
    (t.bruCount ≠ s.bruCount → i.opcode = 0x01 ∧ s.inited = false ∧ t.bruCount = s.bruCount + 1) ∧
    t.cfg = s.cfg ∧ t.tile = s.tile ∧ t.inputs = s.inputs ∧ t.epoch = s.epoch

/-- R28, R31: a command that completes sends exactly one response, with the code it leaves in LAST; the result of INIT,
PEEK and GETREG is the one they latch unless they end in ILLEGAL (log entry 16), every other result is 0. -/
def Obligations.OneResponsePerCommand : Prop :=
  ∀ (i : Instr) (s t : State), exec i s = .next t →
    ∃ r, t.rsp = s.rsp ++ [⟨t.last, r⟩] ∧
      (i.opcode ∈ [0x01, 0x04, 0x11] ∧ t.last ≠ .illegal → r = t.result) ∧
      (¬ (i.opcode ∈ [0x01, 0x04, 0x11] ∧ t.last ≠ .illegal) → r = 0 ∧ t.result = s.result)

/-- R24: once INITED is set, no step but a reset, between commands or during one, clears it. -/
def Obligations.InitedClearedOnlyByReset : Prop :=
  ∀ s t : State, step s = .next t → s.inited = true → s.inputs.head? ≠ some .reset →
    (∀ d reached, s.inputs.head? ≠ some (.resetDuring d reached)) → t.inited = true

/-- R211, R28: a descriptor that ends in a skip or in ILLEGAL, a reserved opcode among them, changes LAST and sends its
response, and nothing else. The result 0 in the response of an ILLEGAL INIT or GETREG is deduced (log entry 16). -/
def Obligations.SkipIsTotal : Prop :=
  ∀ (d : Descriptor) (s t : State), s.runDescriptor d = .next t →
    (t.last = .skipFormat ∨ t.last = .skipNotGrey1 ∨ t.last = .illegal) →
      t = { s with last := t.last, rsp := s.rsp ++ [⟨t.last, 0⟩] }

/-- R62, R210, R247: a command completes exactly when every byte address it computes is below FB_LEN; otherwise it
stops in the one fault there is. -/
def Obligations.CompletesExactlyInBuffer : Prop :=
  ∀ (i : Instr) (s : State),
    (s.inBuffer i = true → ∃ t, exec i s = .next t) ∧
    (s.inBuffer i = false → exec i s = .fault .outOfBuffer)

/-- R245: a host that keeps the virtual screen inside the physical one, and coordinates, spans and tiles inside the
virtual screen, never meets a fault. -/
def Obligations.InBoundsHostNeverFaults : Prop :=
  ∀ (i : Instr) (s : State), s.screenFits = true → s.hostInBounds i = true → ∃ t, exec i s = .next t

/-- R24, R26, R27, R234: but for INIT, SETVS and GETREG, what a command does depends neither on the virtual screen's
size nor on STATUS. -/
def Obligations.StatusAndScreenSizeDoNotMatter : Prop :=
  ∀ (i : Instr) (s : State) (w h : Half) (l : Code) (b : Bool), i.opcode ∉ [0x01, 0x03, 0x04] →
    exec i { s with vsW := w, vsH := h, last := l, inited := b } =
      Answer.mapNext (fun t => { t with vsW := w, vsH := h, inited := b }) (exec i s)

/-- R54, R55: the physical coordinate and the linear index, exact and without a wrap; and the virtual screen's offset only
translates: a command at (x, y) is the command at the physical coordinate with a zero offset. -/
def Obligations.VirtualOffsetTranslates : Prop :=
  ∀ s : State,
  (∀ px py : Nat, s.cfg.lin px py = py * s.cfg.physW + px) ∧
  (∀ x y : Half, s.px x = x.toNat + s.vsCol.toNat ∧ s.py y = y.toNat + s.vsRow.toNat ∧
    s.linIndex x y = (y.toNat + s.vsRow.toNat) * s.cfg.physW + (x.toNat + s.vsCol.toNat)) ∧
  ∀ x y px py : Half, px.toNat = x.toNat + s.vsCol.toNat → py.toNat = y.toNat + s.vsRow.toNat →
    let z := { s with vsCol := 0, vsRow := 0 }
    let back := fun t : State => { t with vsCol := s.vsCol, vsRow := s.vsRow }
    (∀ v, exec (.poke x y v) s = Answer.mapNext back (exec (.poke px py v) z)) ∧
    exec (.peek x y) s = Answer.mapNext back (exec (.peek px py) z) ∧
    (∀ n v, exec (.span x y n v) s = Answer.mapNext back (exec (.span px py n v) z)) ∧
    (∀ a b p, exec (.blit x y a b p) s = Answer.mapNext back (exec (.blit px py a b p) z)) ∧
    (∀ a b p q r, exec (.blitr x y a b p q r) s = Answer.mapNext back (exec (.blitr px py a b p q r) z))

/-- R144, R193: CLEAR, FILL and the scrolls act on the whole physical screen and ignore the virtual screen. -/
def Obligations.WholeScreenCommandsIgnoreOffset : Prop :=
  ∀ (i : Instr) (s : State) (col row : Half), i.opcode ∈ [0x20, 0x21, 0x40, 0x41] →
    exec i { s with vsCol := col, vsRow := row } =
      Answer.mapNext (fun t => { t with vsCol := col, vsRow := row }) (exec i s)

/-! ## Layout and single pixels (`20_memory.md`, `41_pixel_access.md`) -/

/-- R11, R193: the extents of a legal configuration are exact. -/
def Obligations.ExtentGeometry : Prop :=
  ∀ c : Config, c.legal = true →
    (∀ f : Format, c.extentBytes f.bpp * 8 = c.extentPix * f.bpp ∧ c.extentBytes f.bpp ≤ c.fbLen) ∧
    c.extentBytes 16 = c.fbLen ∧ c.totalRows * c.pitch = c.physH * c.rby ∧
    c.physH * c.rby = c.extentBytes 1 ∧ c.totalRows * c.cellH = c.physH ∧ c.totalCols * c.cellW = c.physW

/-- R50: where each format keeps pixel L. That the higher bit of a field is the value's higher bit is the sentence of
R50 that the spec marks as derived. -/
def Obligations.PixelLayout : Prop :=
  ∀ (s : State) (L : Nat), s.pixRead L =
    match s.fmt with
    | .grey1 => (BitVec.ofBool ((s.fbByte (L / 8)).getLsbD (7 - L % 8))).setWidth 16
    | .grey2 => ((s.fbByte (L / 4)).extractLsb' (6 - 2 * (L % 4)) 2).setWidth 16
    | .grey4 => ((s.fbByte (L / 2)).extractLsb' (if L % 2 = 0 then 4 else 0) 4).setWidth 16
    | .indexed8 => (s.fbByte L).setWidth 16
    | .rgb565 => (s.fbByte (2 * L)).setWidth 16 ||| ((s.fbByte (2 * L + 1)).setWidth 16 <<< 8)

/-- R16: a masked write replaces exactly the bits under the mask; an empty mask does nothing. -/
def Obligations.MaskedWriteReplacesUnderMask : Prop :=
  ∀ (s : State) (a : Nat) (m d : Byte),
    (∀ i, ((s.maskedWrite a m d).fbByte a).getLsbD i =
      if m.getLsbD i then d.getLsbD i else (s.fbByte a).getLsbD i) ∧
    (∀ b, b ≠ a → (s.maskedWrite a m d).fbByte b = s.fbByte b) ∧
    s.maskedWrite a 0x00 d = s ∧ s.maskedWrite a 0xFF d = s.memWrite a d

/-- R65, which the spec marks as derived from R50 and R16: the mask of a byte selects the byte's bits in the run;
strictly inside the run it is full. -/
def Obligations.ByteMaskSelectsRun : Prop :=
  (∀ B a0 a1 i : Nat, i < 8 →
    (byteMask B a0 a1).getLsbD i = decide (a0 ≤ 8 * B + (7 - i) ∧ 8 * B + (7 - i) < a1)) ∧
  (∀ B a0 a1 : Nat, a0 / 8 < B → B < (a1 - 1) / 8 → byteMask B a0 a1 = 0xFF) ∧
  byteMask 0 3 11 = 0x1F ∧ byteMask 1 3 11 = 0xE0 ∧ byteMask 0 2 5 = 0x38

/-- R130: POKE writes one pixel, the low b bits of the value (R13, R83), and leaves every other pixel, and every byte that
does not hold it, as it was. -/
def Obligations.PokeEffect : Prop :=
  (∀ d : Descriptor, d.op = 0x10 → decode d = .ok (.poke d.x d.y d.value)) ∧
  ∀ (s : State) (x y v : Half),
    let L := s.linIndex x y
    (s.fmt.trunc v).toNat = v.toNat % 2 ^ s.fmt.bpp ∧
    (s.fmt.lastByte L 1 < s.cfg.fbLen →
      ∃ t, exec (.poke x y v) s = .next t ∧
        t = { s with fb := t.fb, last := .ok, rsp := s.rsp ++ [⟨.ok, 0⟩] } ∧
        t.pixRead L = s.fmt.trunc v ∧
        (∀ L', L' ≠ L → t.pixRead L' = s.pixRead L') ∧
        ∀ a, ¬ (s.fmt.pixByte L ≤ a ∧ a ≤ s.fmt.lastByte L 1) → t.fbByte a = s.fbByte a)

/-- R131: PEEK answers with the pixel, zero-extended, and changes no byte. -/
def Obligations.PeekEffect : Prop :=
  (∀ d : Descriptor, d.op = 0x11 → decode d = .ok (.peek d.x d.y)) ∧
  ∀ (s : State) (x y : Half),
    let L := s.linIndex x y
    let v := (s.pixRead L).setWidth 32
    v.toNat < 2 ^ s.fmt.bpp ∧
    (s.fmt.lastByte L 1 < s.cfg.fbLen → exec (.peek x y) s =
      .next { s with last := .ok, result := v, rsp := s.rsp ++ [⟨.ok, v⟩] })

/-- The four laws of POKE and PEEK, which R132 marks as derived from R56 and R16. -/
def Obligations.PokePeekLaws : Prop :=
  ∀ (s : State) (x y v : Half), s.inBuffer (.peek x y) = true →
    (∃ t u, exec (.poke x y v) s = .next t ∧ exec (.peek x y) t = .next u ∧
      u.result = (s.fmt.trunc v).setWidth 32) ∧
    (∃ t u, exec (.peek x y) s = .next t ∧ exec (.poke x y (t.result.setWidth 16)) t = .next u ∧
      s.sameBuffer u) ∧
    ∀ x' y' v' : Half, s.inBuffer (.peek x' y') = true → s.linIndex x' y' ≠ s.linIndex x y →
      (∃ t u w, exec (.poke x y v) s = .next t ∧ exec (.peek x' y') t = .next u ∧
        exec (.peek x' y') s = .next w ∧ u.result = w.result) ∧
      ∃ t u t' u', exec (.poke x y v) s = .next t ∧ exec (.poke x' y' v') t = .next u ∧
        exec (.poke x' y' v') s = .next t' ∧ exec (.poke x y v) t' = .next u' ∧ u.sameBuffer u'

/-- R51, which the spec marks as derived: the bytes of an RGB565 pixel as INDEXED8 and GREY4 pixels. -/
def Obligations.FormatsAreViewsOfTheSameBytes : Prop :=
  ∀ (s : State) (x y v : Half), s.fmt = .rgb565 → s.inBuffer (.poke x y v) = true →
    ∃ t, exec (.poke x y v) s = .next t ∧
      ∃ u, exec (.setfmt 3) t = .next u ∧
        u.pixRead (2 * s.linIndex x y) = (v.extractLsb' 0 8).setWidth 16 ∧
        u.pixRead (2 * s.linIndex x y + 1) = (v.extractLsb' 8 8).setWidth 16 ∧
      ∃ w, exec (.setfmt 2) t = .next w ∧
        w.pixRead (4 * s.linIndex x y) = (v.extractLsb' 4 4).setWidth 16 ∧
        w.pixRead (4 * s.linIndex x y + 1) = (v.extractLsb' 0 4).setWidth 16 ∧
        w.pixRead (4 * s.linIndex x y + 2) = (v.extractLsb' 12 4).setWidth 16 ∧
        w.pixRead (4 * s.linIndex x y + 3) = (v.extractLsb' 8 4).setWidth 16

/-! ## Fill engine (`42_fill.md`) -/

/-- R143: the expanded byte by its formulas, and that each of its pixel fields holds the value. -/
def Obligations.ExpandedByteHoldsValue : Prop :=
  (∀ v : Half, Format.expand .grey1 v = if v = 1 then 0xFF else 0x00) ∧
  (∀ v : Half, v.toNat < 4 → (Format.expand .grey2 v).toNat = v.toNat * 0x55) ∧
  (∀ v : Half, v.toNat < 16 → (Format.expand .grey4 v).toNat = v.toNat * 0x11) ∧
  ∀ (f : Format) (v : Half) (k : Nat), f.bpp < 8 → v.toNat < 2 ^ f.bpp → k < f.ppb →
    ((Format.expand f v).setWidth 16 >>> (8 - f.bpp - k * f.bpp)) &&& f.pixMask = v

/-- R141: FILL gives every pixel of the active extent the value; bytes beyond the extent, and registers, stay. -/
def Obligations.FillEffect : Prop :=
  (∀ d : Descriptor, d.op = 0x21 → decode d = .ok (.fill d.value)) ∧
  ∀ (s : State) (v : Half),
    ∃ t, exec (.fill v) s = .next t ∧
      t = { s with fb := t.fb, last := .ok, rsp := s.rsp ++ [⟨.ok, 0⟩] } ∧
      (∀ a, a < s.cfg.extentBytes s.fmt.bpp → t.fbByte a = s.fmt.fillByte (s.fmt.trunc v) a) ∧
      (∀ a, s.cfg.extentBytes s.fmt.bpp ≤ a → t.fbByte a = s.fbByte a) ∧
      (s.cfg.legal = true → ∀ L, L < s.cfg.extentPix → t.pixRead L = s.fmt.trunc v)

/-- R140: CLEAR gives every pixel of the active extent the background value; bytes beyond the extent, and registers,
stay; a second CLEAR changes no byte. -/
def Obligations.ClearEffect : Prop :=
  (∀ d : Descriptor, d.op = 0x20 → decode d = .ok .clear) ∧
  ∀ s : State,
    ∃ t, exec .clear s = .next t ∧
      t = { s with fb := t.fb, last := .ok, rsp := s.rsp ++ [⟨.ok, 0⟩] } ∧
      (∀ a, a < s.cfg.extentBytes s.fmt.bpp → t.fbByte a = s.fmt.fillByte (s.fmt.trunc s.cfg.bg) a) ∧
      (∀ a, s.cfg.extentBytes s.fmt.bpp ≤ a → t.fbByte a = s.fbByte a) ∧
      (s.cfg.legal = true → ∀ L, L < s.cfg.extentPix → t.pixRead L = s.fmt.trunc s.cfg.bg) ∧
      ∃ u, exec .clear t = .next u ∧ t.sameBuffer u

/-- R140 corner case d, which the spec marks as derived: CLEAR is FILL with the background value. -/
def Obligations.ClearIsFillOfBackground : Prop :=
  ∀ s : State, exec .clear s = exec (.fill s.cfg.bg) s

/-- R142: what SPAN stores, byte by byte, and that it stores nothing else; a zero length does nothing wherever it
points. -/
def Obligations.SpanEffect : Prop :=
  (∀ d : Descriptor, d.op = 0x22 → decode d = .ok (.span d.x d.y d.w3 d.value)) ∧
  ∀ (s : State) (x y value : Half) (len : Word),
    let L0 := s.linIndex x y
    let n := len.toNat
    let b := s.fmt.bpp
    let v := s.fmt.trunc value
    (len = 0 → exec (.span x y len value) s = .next { s with last := .ok, rsp := s.rsp ++ [⟨.ok, 0⟩] }) ∧
    (0 < n → s.fmt.lastByte L0 n < s.cfg.fbLen →
      ∃ t, exec (.span x y len value) s = .next t ∧
        t = { s with fb := t.fb, last := .ok, rsp := s.rsp ++ [⟨.ok, 0⟩] } ∧
        (b < 8 → ∀ B, L0 * b / 8 ≤ B → B ≤ ((L0 + n) * b - 1) / 8 →
          t.fbByte B = mergeByte (s.fbByte B) (byteMask B (L0 * b) ((L0 + n) * b)) (s.fmt.expand v)) ∧
        (s.fmt = .indexed8 → ∀ L, L0 ≤ L → L < L0 + n → t.fbByte L = v.extractLsb' 0 8) ∧
        (s.fmt = .rgb565 → ∀ L, L0 ≤ L → L < L0 + n →
          t.fbByte (2 * L) = v.extractLsb' 0 8 ∧ t.fbByte (2 * L + 1) = v.extractLsb' 8 8) ∧
        ∀ a, ¬ (s.fmt.pixByte L0 ≤ a ∧ a ≤ s.fmt.lastByte L0 n) → t.fbByte a = s.fbByte a)

/-- The effect on the pixel view that R142 marks as derived from R65: SPAN gives len consecutive pixels the value and
leaves every other pixel. -/
def Obligations.SpanFillsPixels : Prop :=
  ∀ (s : State) (x y value : Half) (len : Word),
    let L0 := s.linIndex x y
    0 < len.toNat → s.fmt.lastByte L0 len.toNat < s.cfg.fbLen →
      ∃ t, exec (.span x y len value) s = .next t ∧
        (∀ L, L0 ≤ L → L < L0 + len.toNat → t.pixRead L = s.fmt.trunc value) ∧
        ∀ L, ¬ (L0 ≤ L ∧ L < L0 + len.toNat) → t.pixRead L = s.pixRead L

/-- The source's ten-pixel line in CFG_T, byte for byte, as R145 derives it from R142. -/
def Obligations.TenPixelLine : Prop :=
  ∀ s : State, s.cfg = Config.cfgT → s.fmt = .grey1 → s.vsCol = 0 → s.vsRow = 0 →
    (∃ t, exec (.span 0 5 10 1) s = .next t ∧ t.fbByte 10 = 0xFF ∧
      t.fbByte 11 = (s.fbByte 11 &&& 0x3F) ||| 0xC0 ∧ ∀ a, a ≠ 10 → a ≠ 11 → t.fbByte a = s.fbByte a) ∧
    ∀ v : Half, ∃ t, exec (.span 0 5 10 v) s = .next t ∧
      (∀ x, x < 10 → t.pixRead (s.cfg.lin x 5) = Format.trunc .grey1 v) ∧
      ∀ L, ¬ (s.cfg.lin 0 5 ≤ L ∧ L ≤ s.cfg.lin 9 5) → t.pixRead L = s.pixRead L

/-! ## Tile blit (`43_blit.md`) -/

/-- R163: a tile of another format, a reserved code among them, is skipped wherever it is drawn. -/
def Obligations.FormatMismatchSkips : Prop :=
  ∀ (s : State) (x y : Half) (side tfmt : Byte) (ptr : Word) (pat repl : Half),
    (4 < tfmt.toNat → tfmt ≠ s.fmt.code) ∧
    (tfmt ≠ s.fmt.code →
      exec (.blit x y side tfmt ptr) s =
        .next { s with last := .skipFormat, rsp := s.rsp ++ [⟨.skipFormat, 0⟩] } ∧
      exec (.blitr x y side tfmt ptr pat repl) s =
        .next { s with last := .skipFormat, rsp := s.rsp ++ [⟨.skipFormat, 0⟩] })

/-- R160, R162: BLIT draws the tile at any sub-byte alignment, in every format, and touches nothing else; tile byte k of
row j stands where R162 puts it. That SIDE = 0 does nothing is corner case a of R160, which the spec marks as derived. -/
def Obligations.BlitDrawsTile : Prop :=
  (∀ d : Descriptor, d.op = 0x30 → decode d = .ok (.blit d.x d.y d.a8 d.b8 d.w2)) ∧
  ∀ (s : State) (x y : Half) (side : Byte) (ptr : Word),
    let T : Tile := ⟨s.fmt, side.toNat, ptr⟩
    (∀ j k, s.tileByte T j k =
      s.tileRead ((ptr.toNat + j * ((side.toNat * s.fmt.bpp + 7) / 8) + k) % 2 ^ 32)) ∧
    (side = 0 → exec (.blit x y side s.fmt.code ptr) s =
      .next { s with last := .ok, rsp := s.rsp ++ [⟨.ok, 0⟩] }) ∧
    (0 < side.toNat → s.blitLastByte T (s.px x) (s.py y) < s.cfg.fbLen →
      ∃ t, exec (.blit x y side s.fmt.code ptr) s = .next t ∧
        t = { s with fb := t.fb, last := .ok, rsp := s.rsp ++ [⟨.ok, 0⟩] } ∧
        s.drawsTile t T (fun q => q) (s.px x) (s.py y))

/-- R161, R162: BLITR draws the tile with every pixel equal to the pattern replaced, pattern and replacement in the active
width. That SIDE = 0 does nothing is corner case a of R160, which R161 takes over and the spec marks as derived. -/
def Obligations.BlitrDrawsSubstitutedTile : Prop :=
  (∀ d : Descriptor, d.op = 0x31 → decode d = .ok (.blitr d.x d.y d.a8 d.b8 d.w2 d.pat d.repl)) ∧
  ∀ (s : State) (x y : Half) (side : Byte) (ptr : Word) (pat repl : Half),
    let T : Tile := ⟨s.fmt, side.toNat, ptr⟩
    (∀ j k, s.tileByte T j k =
      s.tileRead ((ptr.toNat + j * ((side.toNat * s.fmt.bpp + 7) / 8) + k) % 2 ^ 32)) ∧
    (side = 0 → exec (.blitr x y side s.fmt.code ptr pat repl) s =
      .next { s with last := .ok, rsp := s.rsp ++ [⟨.ok, 0⟩] }) ∧
    (0 < side.toNat → s.blitLastByte T (s.px x) (s.py y) < s.cfg.fbLen →
      ∃ t, exec (.blitr x y side s.fmt.code ptr pat repl) s = .next t ∧
        t = { s with fb := t.fb, last := .ok, rsp := s.rsp ++ [⟨.ok, 0⟩] } ∧
        s.drawsTile t T (fun q => if q = s.fmt.trunc pat then s.fmt.trunc repl else q) (s.px x) (s.py y))

/-- R161 corner case a, which the spec marks as derived: with pattern and replacement equal in the active width, BLITR
is BLIT. -/
def Obligations.BlitrEqualPatternIsBlit : Prop :=
  ∀ (s : State) (x y : Half) (side tfmt : Byte) (ptr : Word) (pat repl : Half),
    s.fmt.trunc pat = s.fmt.trunc repl →
      exec (.blitr x y side tfmt ptr pat repl) s = exec (.blit x y side tfmt ptr) s

/-- R175, which the spec marks as derived from R53: every row of a blit has the same bit offset, the same alignment
case and the same number of bytes, and they depend on px alone. -/
def Obligations.AlignmentSameForEveryRow : Prop :=
  ∀ (c : Config) (f : Format) (px py j side : Nat), c.legal = true →
    c.lin px (py + j) * f.bpp % 8 = px * f.bpp % 8 ∧
    (f.bpp < 8 → c.lin px (py + j) % f.ppb = px % f.ppb) ∧
    (c.lin px (py + j) * f.bpp % 8 + side * f.bpp + 7) / 8 = (px * f.bpp % 8 + side * f.bpp + 7) / 8

/-- R166: the alignment mux bit by bit: the high o bits from the low o bits of the previous source byte, the rest from
the high bits of the current one; nothing precedes the row's first byte and nothing follows its last. -/
def Obligations.AlignMuxIsFunnelShift : Prop :=
  ∀ (s : State) (T : Tile) (g : Stage) (j d o : Nat), o ≤ 7 →
    (∀ i, i < 8 → (s.alignMux T g j d o).getLsbD i =
      if i < 8 - o then (s.srcByte T g j d).getLsbD (i + o)
      else (decide (d ≠ 0) && (s.srcByte T g j (d - 1)).getLsbD (i - (8 - o)))) ∧
    s.alignMux T g j d 0 = s.srcByte T g j d ∧ s.srcByte T g j T.pitch = 0

/-- R167, which the spec marks as derived from R65: for a row of w > 0 bits that starts at bit address a0, the masks
select the row's bits and no others (no pad bit among them), by the four formulas. -/
def Obligations.MaskGeneratorFormulas : Prop :=
  ∀ a0 w : Nat, 0 < w →
    let o := a0 % 8
    let nd := (o + w + 7) / 8
    let e := (o + w - 1) % 8 + 1
    (∀ d i, d < nd → i < 8 → ((byteMask (a0 / 8 + d) a0 (a0 + w)).getLsbD i = true ↔
      a0 ≤ 8 * (a0 / 8 + d) + (7 - i) ∧ 8 * (a0 / 8 + d) + (7 - i) < a0 + w)) ∧
    (1 < nd → byteMask (a0 / 8) a0 (a0 + w) = 0xFF#8 >>> o) ∧
    (1 < nd → byteMask (a0 / 8 + nd - 1) a0 (a0 + w) = 0xFF#8 <<< (8 - e)) ∧
    (nd = 1 → byteMask (a0 / 8) a0 (a0 + w) = (0xFF#8 >>> o) &&& (0xFF#8 <<< (8 - e))) ∧
    ∀ d, 0 < d → d + 1 < nd → byteMask (a0 / 8 + d) a0 (a0 + w) = 0xFF

/-- R172: one row of an 8-pixel GREY1 glyph, whose one byte stands at PTR + j (R162), by the table of its eight alignment
cases. -/
def Obligations.GlyphRowCases : Prop :=
  ∀ (s : State) (ptr : Word) (px py j : Nat),
    let T : Tile := ⟨.grey1, 8, ptr⟩
    let t := s.blitRow T .identity px py j
    let L0 := s.cfg.lin px (py + j)
    let o := L0 % 8
    let S := s.tileRead ((ptr.toNat + j) % 2 ^ 32)
    (o = 0 → t.fbByte (L0 / 8) = S ∧ t.fbByte (L0 / 8 + 1) = s.fbByte (L0 / 8 + 1)) ∧
    (o ≠ 0 →
      t.fbByte (L0 / 8) = (s.fbByte (L0 / 8) &&& ~~~ (0xFF#8 >>> o)) ||| (S >>> o) ∧
      t.fbByte (L0 / 8 + 1) = (s.fbByte (L0 / 8 + 1) &&& (0xFF#8 >>> o)) ||| (S <<< (8 - o))) ∧
    ∀ a, a ≠ L0 / 8 → a ≠ L0 / 8 + 1 → t.fbByte a = s.fbByte a

/-! ## Scroll shifter (`44_scroll.md`) -/

/-- R192: outside GREY1 both scrolls are skipped. -/
def Obligations.ScrollSkippedOutsideGrey1 : Prop :=
  ∀ (s : State) (n : Word), s.fmt ≠ .grey1 →
    exec (.scrlr n) s = .next { s with last := .skipNotGrey1, rsp := s.rsp ++ [⟨.skipNotGrey1, 0⟩] } ∧
    exec (.scrlc n) s = .next { s with last := .skipNotGrey1, rsp := s.rsp ++ [⟨.skipNotGrey1, 0⟩] }

/-- R190: SCRLR moves the scanlines up by count cell rows and fills the revealed ones with background; at or above the
total it is CLEAR; bytes beyond the extent stay. -/
def Obligations.RowScrollEffect : Prop :=
  (∀ d : Descriptor, d.op = 0x40 → decode d = .ok (.scrlr d.w2)) ∧
  ∀ (s : State) (n : Word),
    (s.fmt ≠ .grey1 →
      exec (.scrlr n) s = .next { s with last := .skipNotGrey1, rsp := s.rsp ++ [⟨.skipNotGrey1, 0⟩] }) ∧
    (s.fmt = .grey1 → s.cfg.totalRows ≤ n.toNat → exec (.scrlr n) s = exec .clear s) ∧
    (s.fmt = .grey1 → n.toNat < s.cfg.totalRows →
      let keep := (s.cfg.totalRows - n.toNat) * s.cfg.pitch
      ∃ t, exec (.scrlr n) s = .next t ∧
        t = { s with fb := t.fb, last := .ok, rsp := s.rsp ++ [⟨.ok, 0⟩] } ∧
        (∀ a, a < keep → t.fbByte a = s.fbByte (a + n.toNat * s.cfg.pitch)) ∧
        (∀ a, keep ≤ a → a < s.cfg.extentBytes 1 → t.fbByte a = if s.cfg.bg.getLsbD 0 then 0xFF else 0x00) ∧
        (∀ a, s.cfg.extentBytes 1 ≤ a → t.fbByte a = s.fbByte a) ∧
        (s.cfg.legal = true → ∀ x y, x < s.cfg.physW → y < s.cfg.physH →
          t.pixRead (s.cfg.lin x y) =
            if y < s.cfg.physH - n.toNat * s.cfg.cellH then s.pixRead (s.cfg.lin x (y + n.toNat * s.cfg.cellH))
            else Format.trunc .grey1 s.cfg.bg))

/-- R191: SCRLC moves the pixels of every scanline left by count cells within the scanline and fills the revealed ones
with background, byte or bit shift alike; at or above the total it is CLEAR. -/
def Obligations.ColumnScrollEffect : Prop :=
  (∀ d : Descriptor, d.op = 0x41 → decode d = .ok (.scrlc d.w2)) ∧
  ∀ (s : State) (n : Word),
    (s.fmt ≠ .grey1 →
      exec (.scrlc n) s = .next { s with last := .skipNotGrey1, rsp := s.rsp ++ [⟨.skipNotGrey1, 0⟩] }) ∧
    (s.fmt = .grey1 → s.cfg.totalCols ≤ n.toNat → exec (.scrlc n) s = exec .clear s) ∧
    (s.fmt = .grey1 → n.toNat < s.cfg.totalCols →
      ∃ t, exec (.scrlc n) s = .next t ∧
        t = { s with fb := t.fb, last := .ok, rsp := s.rsp ++ [⟨.ok, 0⟩] } ∧
        (∀ a, s.cfg.extentBytes 1 ≤ a → t.fbByte a = s.fbByte a) ∧
        (s.cfg.legal = true → ∀ x y, x < s.cfg.physW → y < s.cfg.physH →
          t.pixRead (s.cfg.lin x y) =
            if x < s.cfg.physW - n.toNat * s.cfg.cellW then s.pixRead (s.cfg.lin (x + n.toNat * s.cfg.cellW) y)
            else Format.trunc .grey1 s.cfg.bg))

/-- The laws of the scrolls, which R194 marks as derived from R190 to R192, on what the buffer reads. -/
def Obligations.ScrollLaws : Prop :=
  ∀ s : State, s.cfg.legal = true →
    (s.fmt ≠ .grey1 → ∀ n : Word, ∃ t u, exec (.scrlr n) s = .next t ∧ exec (.scrlc n) s = .next u ∧
      t.fb = s.fb ∧ u.fb = s.fb) ∧
    (s.fmt = .grey1 →
      (∀ n : Word, s.cfg.totalRows ≤ n.toNat → exec (.scrlr n) s = exec .clear s) ∧
      (∀ n : Word, s.cfg.totalCols ≤ n.toNat → exec (.scrlc n) s = exec .clear s) ∧
      (∀ k : Word, ∃ t u, execTimes (.scrlr 1) k.toNat s = .next t ∧ exec (.scrlr k) s = .next u ∧
        t.sameBuffer u) ∧
      (∀ k : Word, ∃ t u, execTimes (.scrlc 1) k.toNat s = .next t ∧ exec (.scrlc k) s = .next u ∧
        t.sameBuffer u) ∧
      (∀ a c m : Word, m.toNat = a.toNat + c.toNat → ∃ t u w, exec (.scrlr a) s = .next t ∧
        exec (.scrlr c) t = .next u ∧ exec (.scrlr m) s = .next w ∧ u.sameBuffer w) ∧
      (∀ a c m : Word, m.toNat = a.toNat + c.toNat → ∃ t u w, exec (.scrlc a) s = .next t ∧
        exec (.scrlc c) t = .next u ∧ exec (.scrlc m) s = .next w ∧ u.sameBuffer w) ∧
      ∀ a c : Word, ∃ t u t' u', exec (.scrlr a) s = .next t ∧ exec (.scrlc c) t = .next u ∧
        exec (.scrlc c) s = .next t' ∧ exec (.scrlr a) t' = .next u' ∧ u.sameBuffer u')

/-! ## Added after the review -/

/-- R232, U19: a reset during a command abandons it: no response, registers at their reset values, every buffer byte
unspecified anew, tile space, parameters, the host's plan and the responses already received as they were. What the
transport sees of an abandoned INIT, and that a command which had reached an access outside the buffer faults, are the
model's choice of log entry 15; the numbering of the free values is that of log entries 4 and 6. -/
def Obligations.ResetDuringCommandAbandons : Prop :=
  ∀ (s : State) (d : Descriptor) (reached : Bool) (rest : List HostInput),
    s.cfg.legal = true → s.inputs = .resetDuring d reached :: rest →
      let t := { State.atReset s.cfg with
                 tile := s.tile, inputs := rest, rsp := s.rsp, bru := s.bru, bruCount := s.bruCount,
                 epoch := s.epoch + 1 }
      let asks := d.op = 0x01 ∧ d.a8.toNat ≤ 4 ∧ s.inited = false
      (∀ a, t.fbByte a = Config.powerOnByte (s.epoch + 1) a) ∧
      (reached = false → step s = .next t) ∧
      (reached = true → asks → step s = .next { t with bru := s.bru.tail, bruCount := s.bruCount + 1 }) ∧
      (reached = true → ¬ asks → (∀ i, decode d = .ok i → s.inBuffer i = true) → step s = .next t) ∧
      (reached = true → ∀ i, decode d = .ok i → s.inBuffer i = false → step s = .fault .outOfBuffer)

/-- R162: where a tile keeps the pixel in column i of row j: rows of whole bytes from PTR on, addresses modulo 2^32, pixels
packed in a row as in the frame buffer. -/
def Obligations.TilePixelLayout : Prop :=
  ∀ (s : State) (T : Tile) (i j : Nat),
    let byte := fun k => s.tileRead ((T.ptr.toNat + j * ((T.side * T.fmt.bpp + 7) / 8) + k) % 2 ^ 32)
    (∀ k, s.tileByte T j k = byte k) ∧
    s.tilePix T i j =
      match T.fmt with
      | .grey1 => (BitVec.ofBool ((byte (i / 8)).getLsbD (7 - i % 8))).setWidth 16
      | .grey2 => ((byte (i / 4)).extractLsb' (6 - 2 * (i % 4)) 2).setWidth 16
      | .grey4 => ((byte (i / 2)).extractLsb' (if i % 2 = 0 then 4 else 0) 4).setWidth 16
      | .indexed8 => (byte i).setWidth 16
      | .rgb565 => (byte (2 * i)).setWidth 16 ||| ((byte (2 * i + 1)).setWidth 16 <<< 8)
end

