-- ==== Sys2Proof/Laws/State.lean ====
section
/-! SUPPORT. What each state update leaves in each field, by rfl, so that no later proof unfolds a record update. -/

namespace Sys2Proof.Machine

/-! ## `State.done` -/

@[simp] theorem State.done_cfg (s : State) (c : Code) :
    (s.done c).cfg = s.cfg := rfl
@[simp] theorem State.done_inited (s : State) (c : Code) :
    (s.done c).inited = s.inited := rfl
@[simp] theorem State.done_last (s : State) (c : Code) :
    (s.done c).last = c := rfl
@[simp] theorem State.done_fmt (s : State) (c : Code) :
    (s.done c).fmt = s.fmt := rfl
@[simp] theorem State.done_vsCol (s : State) (c : Code) :
    (s.done c).vsCol = s.vsCol := rfl
@[simp] theorem State.done_vsRow (s : State) (c : Code) :
    (s.done c).vsRow = s.vsRow := rfl
@[simp] theorem State.done_vsW (s : State) (c : Code) :
    (s.done c).vsW = s.vsW := rfl
@[simp] theorem State.done_vsH (s : State) (c : Code) :
    (s.done c).vsH = s.vsH := rfl
@[simp] theorem State.done_result (s : State) (c : Code) :
    (s.done c).result = s.result := rfl
@[simp] theorem State.done_fb (s : State) (c : Code) :
    (s.done c).fb = s.fb := rfl
@[simp] theorem State.done_tile (s : State) (c : Code) :
    (s.done c).tile = s.tile := rfl
@[simp] theorem State.done_inputs (s : State) (c : Code) :
    (s.done c).inputs = s.inputs := rfl
@[simp] theorem State.done_rsp (s : State) (c : Code) :
    (s.done c).rsp = s.rsp ++ [{ code := c, result := 0 }] := rfl
@[simp] theorem State.done_bru (s : State) (c : Code) :
    (s.done c).bru = s.bru := rfl
@[simp] theorem State.done_bruCount (s : State) (c : Code) :
    (s.done c).bruCount = s.bruCount := rfl
@[simp] theorem State.done_epoch (s : State) (c : Code) :
    (s.done c).epoch = s.epoch := rfl

/-! ## `State.doneWith` -/

@[simp] theorem State.doneWith_cfg (s : State) (c : Code) (r : Word) :
    (s.doneWith c r).cfg = s.cfg := rfl
@[simp] theorem State.doneWith_inited (s : State) (c : Code) (r : Word) :
    (s.doneWith c r).inited = s.inited := rfl
@[simp] theorem State.doneWith_last (s : State) (c : Code) (r : Word) :
    (s.doneWith c r).last = c := rfl
@[simp] theorem State.doneWith_fmt (s : State) (c : Code) (r : Word) :
    (s.doneWith c r).fmt = s.fmt := rfl
@[simp] theorem State.doneWith_vsCol (s : State) (c : Code) (r : Word) :
    (s.doneWith c r).vsCol = s.vsCol := rfl
@[simp] theorem State.doneWith_vsRow (s : State) (c : Code) (r : Word) :
    (s.doneWith c r).vsRow = s.vsRow := rfl
@[simp] theorem State.doneWith_vsW (s : State) (c : Code) (r : Word) :
    (s.doneWith c r).vsW = s.vsW := rfl
@[simp] theorem State.doneWith_vsH (s : State) (c : Code) (r : Word) :
    (s.doneWith c r).vsH = s.vsH := rfl
@[simp] theorem State.doneWith_result (s : State) (c : Code) (r : Word) :
    (s.doneWith c r).result = r := rfl
@[simp] theorem State.doneWith_fb (s : State) (c : Code) (r : Word) :
    (s.doneWith c r).fb = s.fb := rfl
@[simp] theorem State.doneWith_tile (s : State) (c : Code) (r : Word) :
    (s.doneWith c r).tile = s.tile := rfl
@[simp] theorem State.doneWith_inputs (s : State) (c : Code) (r : Word) :
    (s.doneWith c r).inputs = s.inputs := rfl
@[simp] theorem State.doneWith_rsp (s : State) (c : Code) (r : Word) :
    (s.doneWith c r).rsp = s.rsp ++ [{ code := c, result := r }] := rfl
@[simp] theorem State.doneWith_bru (s : State) (c : Code) (r : Word) :
    (s.doneWith c r).bru = s.bru := rfl
@[simp] theorem State.doneWith_bruCount (s : State) (c : Code) (r : Word) :
    (s.doneWith c r).bruCount = s.bruCount := rfl
@[simp] theorem State.doneWith_epoch (s : State) (c : Code) (r : Word) :
    (s.doneWith c r).epoch = s.epoch := rfl

/-! ## `State.writeRange` -/

@[simp] theorem State.writeRange_cfg (s : State) (a n : Nat) (f : Nat → Byte) :
    (s.writeRange a n f).cfg = s.cfg := rfl
@[simp] theorem State.writeRange_inited (s : State) (a n : Nat) (f : Nat → Byte) :
    (s.writeRange a n f).inited = s.inited := rfl
@[simp] theorem State.writeRange_last (s : State) (a n : Nat) (f : Nat → Byte) :
    (s.writeRange a n f).last = s.last := rfl
@[simp] theorem State.writeRange_fmt (s : State) (a n : Nat) (f : Nat → Byte) :
    (s.writeRange a n f).fmt = s.fmt := rfl
@[simp] theorem State.writeRange_vsCol (s : State) (a n : Nat) (f : Nat → Byte) :
    (s.writeRange a n f).vsCol = s.vsCol := rfl
@[simp] theorem State.writeRange_vsRow (s : State) (a n : Nat) (f : Nat → Byte) :
    (s.writeRange a n f).vsRow = s.vsRow := rfl
@[simp] theorem State.writeRange_vsW (s : State) (a n : Nat) (f : Nat → Byte) :
    (s.writeRange a n f).vsW = s.vsW := rfl
@[simp] theorem State.writeRange_vsH (s : State) (a n : Nat) (f : Nat → Byte) :
    (s.writeRange a n f).vsH = s.vsH := rfl
@[simp] theorem State.writeRange_result (s : State) (a n : Nat) (f : Nat → Byte) :
    (s.writeRange a n f).result = s.result := rfl
@[simp] theorem State.writeRange_fb (s : State) (a n : Nat) (f : Nat → Byte) :
    (s.writeRange a n f).fb = s.fb.setRange a n f := rfl
@[simp] theorem State.writeRange_tile (s : State) (a n : Nat) (f : Nat → Byte) :
    (s.writeRange a n f).tile = s.tile := rfl
@[simp] theorem State.writeRange_inputs (s : State) (a n : Nat) (f : Nat → Byte) :
    (s.writeRange a n f).inputs = s.inputs := rfl
@[simp] theorem State.writeRange_rsp (s : State) (a n : Nat) (f : Nat → Byte) :
    (s.writeRange a n f).rsp = s.rsp := rfl
@[simp] theorem State.writeRange_bru (s : State) (a n : Nat) (f : Nat → Byte) :
    (s.writeRange a n f).bru = s.bru := rfl
@[simp] theorem State.writeRange_bruCount (s : State) (a n : Nat) (f : Nat → Byte) :
    (s.writeRange a n f).bruCount = s.bruCount := rfl
@[simp] theorem State.writeRange_epoch (s : State) (a n : Nat) (f : Nat → Byte) :
    (s.writeRange a n f).epoch = s.epoch := rfl

/-! ## `State.memWrite` -/

@[simp] theorem State.memWrite_cfg (s : State) (a : Nat) (v : Byte) :
    (s.memWrite a v).cfg = s.cfg := rfl
@[simp] theorem State.memWrite_inited (s : State) (a : Nat) (v : Byte) :
    (s.memWrite a v).inited = s.inited := rfl
@[simp] theorem State.memWrite_last (s : State) (a : Nat) (v : Byte) :
    (s.memWrite a v).last = s.last := rfl
@[simp] theorem State.memWrite_fmt (s : State) (a : Nat) (v : Byte) :
    (s.memWrite a v).fmt = s.fmt := rfl
@[simp] theorem State.memWrite_vsCol (s : State) (a : Nat) (v : Byte) :
    (s.memWrite a v).vsCol = s.vsCol := rfl
@[simp] theorem State.memWrite_vsRow (s : State) (a : Nat) (v : Byte) :
    (s.memWrite a v).vsRow = s.vsRow := rfl
@[simp] theorem State.memWrite_vsW (s : State) (a : Nat) (v : Byte) :
    (s.memWrite a v).vsW = s.vsW := rfl
@[simp] theorem State.memWrite_vsH (s : State) (a : Nat) (v : Byte) :
    (s.memWrite a v).vsH = s.vsH := rfl
@[simp] theorem State.memWrite_result (s : State) (a : Nat) (v : Byte) :
    (s.memWrite a v).result = s.result := rfl
@[simp] theorem State.memWrite_fb (s : State) (a : Nat) (v : Byte) :
    (s.memWrite a v).fb = s.fb.setRange a 1 (fun _ => v) := rfl
@[simp] theorem State.memWrite_tile (s : State) (a : Nat) (v : Byte) :
    (s.memWrite a v).tile = s.tile := rfl
@[simp] theorem State.memWrite_inputs (s : State) (a : Nat) (v : Byte) :
    (s.memWrite a v).inputs = s.inputs := rfl
@[simp] theorem State.memWrite_rsp (s : State) (a : Nat) (v : Byte) :
    (s.memWrite a v).rsp = s.rsp := rfl
@[simp] theorem State.memWrite_bru (s : State) (a : Nat) (v : Byte) :
    (s.memWrite a v).bru = s.bru := rfl
@[simp] theorem State.memWrite_bruCount (s : State) (a : Nat) (v : Byte) :
    (s.memWrite a v).bruCount = s.bruCount := rfl
@[simp] theorem State.memWrite_epoch (s : State) (a : Nat) (v : Byte) :
    (s.memWrite a v).epoch = s.epoch := rfl

/-! ## `State.setVirtualScreen` -/

@[simp] theorem State.setVirtualScreen_cfg (s : State) (col row w h : Half) :
    (s.setVirtualScreen col row w h).cfg = s.cfg := rfl
@[simp] theorem State.setVirtualScreen_inited (s : State) (col row w h : Half) :
    (s.setVirtualScreen col row w h).inited = s.inited := rfl
@[simp] theorem State.setVirtualScreen_last (s : State) (col row w h : Half) :
    (s.setVirtualScreen col row w h).last = s.last := rfl
@[simp] theorem State.setVirtualScreen_fmt (s : State) (col row w h : Half) :
    (s.setVirtualScreen col row w h).fmt = s.fmt := rfl
@[simp] theorem State.setVirtualScreen_vsCol (s : State) (col row w h : Half) :
    (s.setVirtualScreen col row w h).vsCol = col := rfl
@[simp] theorem State.setVirtualScreen_vsRow (s : State) (col row w h : Half) :
    (s.setVirtualScreen col row w h).vsRow = row := rfl
@[simp] theorem State.setVirtualScreen_vsW (s : State) (col row w h : Half) :
    (s.setVirtualScreen col row w h).vsW = w := rfl
@[simp] theorem State.setVirtualScreen_vsH (s : State) (col row w h : Half) :
    (s.setVirtualScreen col row w h).vsH = h := rfl
@[simp] theorem State.setVirtualScreen_result (s : State) (col row w h : Half) :
    (s.setVirtualScreen col row w h).result = s.result := rfl
@[simp] theorem State.setVirtualScreen_fb (s : State) (col row w h : Half) :
    (s.setVirtualScreen col row w h).fb = s.fb := rfl
@[simp] theorem State.setVirtualScreen_tile (s : State) (col row w h : Half) :
    (s.setVirtualScreen col row w h).tile = s.tile := rfl
@[simp] theorem State.setVirtualScreen_inputs (s : State) (col row w h : Half) :
    (s.setVirtualScreen col row w h).inputs = s.inputs := rfl
@[simp] theorem State.setVirtualScreen_rsp (s : State) (col row w h : Half) :
    (s.setVirtualScreen col row w h).rsp = s.rsp := rfl
@[simp] theorem State.setVirtualScreen_bru (s : State) (col row w h : Half) :
    (s.setVirtualScreen col row w h).bru = s.bru := rfl
@[simp] theorem State.setVirtualScreen_bruCount (s : State) (col row w h : Half) :
    (s.setVirtualScreen col row w h).bruCount = s.bruCount := rfl
@[simp] theorem State.setVirtualScreen_epoch (s : State) (col row w h : Half) :
    (s.setVirtualScreen col row w h).epoch = s.epoch := rfl

/-! ## `State.requestBringUp` -/

@[simp] theorem State.requestBringUp_cfg (s : State) :
    (s.requestBringUp).cfg = s.cfg := rfl
@[simp] theorem State.requestBringUp_inited (s : State) :
    (s.requestBringUp).inited = s.inited := rfl
@[simp] theorem State.requestBringUp_last (s : State) :
    (s.requestBringUp).last = s.last := rfl
@[simp] theorem State.requestBringUp_fmt (s : State) :
    (s.requestBringUp).fmt = s.fmt := rfl
@[simp] theorem State.requestBringUp_vsCol (s : State) :
    (s.requestBringUp).vsCol = s.vsCol := rfl
@[simp] theorem State.requestBringUp_vsRow (s : State) :
    (s.requestBringUp).vsRow = s.vsRow := rfl
@[simp] theorem State.requestBringUp_vsW (s : State) :
    (s.requestBringUp).vsW = s.vsW := rfl
@[simp] theorem State.requestBringUp_vsH (s : State) :
    (s.requestBringUp).vsH = s.vsH := rfl
@[simp] theorem State.requestBringUp_result (s : State) :
    (s.requestBringUp).result = s.result := rfl
@[simp] theorem State.requestBringUp_fb (s : State) :
    (s.requestBringUp).fb = s.fb := rfl
@[simp] theorem State.requestBringUp_tile (s : State) :
    (s.requestBringUp).tile = s.tile := rfl
@[simp] theorem State.requestBringUp_inputs (s : State) :
    (s.requestBringUp).inputs = s.inputs := rfl
@[simp] theorem State.requestBringUp_rsp (s : State) :
    (s.requestBringUp).rsp = s.rsp := rfl
@[simp] theorem State.requestBringUp_bru (s : State) :
    (s.requestBringUp).bru = s.bru.tail := rfl
@[simp] theorem State.requestBringUp_bruCount (s : State) :
    (s.requestBringUp).bruCount = s.bruCount + 1 := rfl
@[simp] theorem State.requestBringUp_epoch (s : State) :
    (s.requestBringUp).epoch = s.epoch := rfl

/-! ## `State.placeTile` -/

@[simp] theorem State.placeTile_cfg (s : State) (a : Word) (v : Byte) :
    (s.placeTile a v).cfg = s.cfg := rfl
@[simp] theorem State.placeTile_inited (s : State) (a : Word) (v : Byte) :
    (s.placeTile a v).inited = s.inited := rfl
@[simp] theorem State.placeTile_last (s : State) (a : Word) (v : Byte) :
    (s.placeTile a v).last = s.last := rfl
@[simp] theorem State.placeTile_fmt (s : State) (a : Word) (v : Byte) :
    (s.placeTile a v).fmt = s.fmt := rfl
@[simp] theorem State.placeTile_vsCol (s : State) (a : Word) (v : Byte) :
    (s.placeTile a v).vsCol = s.vsCol := rfl
@[simp] theorem State.placeTile_vsRow (s : State) (a : Word) (v : Byte) :
    (s.placeTile a v).vsRow = s.vsRow := rfl
@[simp] theorem State.placeTile_vsW (s : State) (a : Word) (v : Byte) :
    (s.placeTile a v).vsW = s.vsW := rfl
@[simp] theorem State.placeTile_vsH (s : State) (a : Word) (v : Byte) :
    (s.placeTile a v).vsH = s.vsH := rfl
@[simp] theorem State.placeTile_result (s : State) (a : Word) (v : Byte) :
    (s.placeTile a v).result = s.result := rfl
@[simp] theorem State.placeTile_fb (s : State) (a : Word) (v : Byte) :
    (s.placeTile a v).fb = s.fb := rfl
@[simp] theorem State.placeTile_tile (s : State) (a : Word) (v : Byte) :
    (s.placeTile a v).tile = s.tile.setRange a.toNat 1 (fun _ => v) := rfl
@[simp] theorem State.placeTile_inputs (s : State) (a : Word) (v : Byte) :
    (s.placeTile a v).inputs = s.inputs := rfl
@[simp] theorem State.placeTile_rsp (s : State) (a : Word) (v : Byte) :
    (s.placeTile a v).rsp = s.rsp := rfl
@[simp] theorem State.placeTile_bru (s : State) (a : Word) (v : Byte) :
    (s.placeTile a v).bru = s.bru := rfl
@[simp] theorem State.placeTile_bruCount (s : State) (a : Word) (v : Byte) :
    (s.placeTile a v).bruCount = s.bruCount := rfl
@[simp] theorem State.placeTile_epoch (s : State) (a : Word) (v : Byte) :
    (s.placeTile a v).epoch = s.epoch := rfl

/-! ## `State.afterReset` -/

@[simp] theorem State.afterReset_cfg (s : State) :
    (s.afterReset).cfg = s.cfg := rfl
@[simp] theorem State.afterReset_inited (s : State) :
    (s.afterReset).inited = false := rfl
@[simp] theorem State.afterReset_last (s : State) :
    (s.afterReset).last = .ok := rfl
@[simp] theorem State.afterReset_fmt (s : State) :
    (s.afterReset).fmt = .grey1 := rfl
@[simp] theorem State.afterReset_vsCol (s : State) :
    (s.afterReset).vsCol = 0 := rfl
@[simp] theorem State.afterReset_vsRow (s : State) :
    (s.afterReset).vsRow = 0 := rfl
@[simp] theorem State.afterReset_vsW (s : State) :
    (s.afterReset).vsW = BitVec.ofNat 16 s.cfg.physW := rfl
@[simp] theorem State.afterReset_vsH (s : State) :
    (s.afterReset).vsH = BitVec.ofNat 16 s.cfg.physH := rfl
@[simp] theorem State.afterReset_result (s : State) :
    (s.afterReset).result = 0 := rfl
@[simp] theorem State.afterReset_fb (s : State) :
    (s.afterReset).fb = [] := rfl
@[simp] theorem State.afterReset_tile (s : State) :
    (s.afterReset).tile = s.tile := rfl
@[simp] theorem State.afterReset_inputs (s : State) :
    (s.afterReset).inputs = s.inputs := rfl
@[simp] theorem State.afterReset_rsp (s : State) :
    (s.afterReset).rsp = s.rsp := rfl
@[simp] theorem State.afterReset_bru (s : State) :
    (s.afterReset).bru = s.bru := rfl
@[simp] theorem State.afterReset_bruCount (s : State) :
    (s.afterReset).bruCount = s.bruCount := rfl
@[simp] theorem State.afterReset_epoch (s : State) :
    (s.afterReset).epoch = s.epoch + 1 := rfl

end Sys2Proof.Machine
end

