-- ==== Sys2Proof/Laws/Memory.lean ====
section
/-! SUPPORT. The laws of the two memories: what a read gives after a write, that every write keeps the canonical form,
and the same said once for each operation on the buffer. -/

namespace Sys2Proof.Machine

/-! ## Memories as data -/

theorem Memory.get?_append (m n : Memory) (a : Nat) :
    Memory.get? (m ++ n) a = (Memory.get? m a).or (Memory.get? n a) := by
  induction m with
  | nil => simp [Memory.get?]
  | cons c rest ih =>
    simp only [List.cons_append, Memory.get?]
    split <;> simp [ih]

theorem Memory.get?_filter (m : Memory) (p : Nat → Bool) (a : Nat) :
    Memory.get? (m.filter fun c => p c.1) a = if p a then Memory.get? m a else none := by
  induction m with
  | nil => simp [Memory.get?]
  | cons c rest ih =>
    simp only [List.filter_cons, Memory.get?]
    split <;> rename_i hc <;> by_cases ha : a = c.1 <;> simp_all [Memory.get?]

theorem Memory.get?_tabulate (xs : List Nat) (f : Nat → Byte) (a : Nat) :
    Memory.get? (xs.map fun x => (x, f x)) a = if a ∈ xs then some (f a) else none := by
  induction xs with
  | nil => simp [Memory.get?]
  | cons x rest ih =>
    simp only [List.map_cons, Memory.get?, List.mem_cons]
    by_cases h : a = x <;> simp_all

/-- A read after a write: the bytes written in the range, the bytes that were there outside it. -/
theorem Memory.get?_setRange (m : Memory) (a n : Nat) (f : Nat → Byte) (x : Nat) :
    (m.setRange a n f).get? x = if a ≤ x ∧ x < a + n then some (f x) else m.get? x := by
  have hlo := Memory.get?_filter m (fun y => y < a) x
  have hhi := Memory.get?_filter m (fun y => a + n ≤ y) x
  simp only [Memory.setRange, Memory.get?_append, Memory.get?_tabulate, List.mem_range'_1, hlo, hhi]
  by_cases h : a ≤ x ∧ x < a + n
  · have : ¬ x < a := by omega
    simp [h, this]
  · by_cases h1 : x < a
    · have : ¬ a + n ≤ x := by omega
      simp [h1, this, Nat.not_le.mpr h1]
    · have : a + n ≤ x := by omega
      simp [h, h1, this]

theorem Memory.setRange_wf {m : Memory} (h : m.wf) (a n : Nat) (f : Nat → Byte) : (m.setRange a n f).wf := by
  simp only [Memory.wf, Memory.setRange, List.map_append, List.map_map, Function.comp_def, List.map_id'] at *
  have hsub : ∀ p : Host.Cell → Bool, ((m.filter p).map Prod.fst).Pairwise (· < ·) := fun p =>
    h.sublist (List.filter_sublist.map _)
  refine List.pairwise_append.mpr ⟨List.pairwise_append.mpr ⟨hsub _, List.pairwise_lt_range', ?_⟩, hsub _, ?_⟩
  · simp only [List.mem_map, List.mem_filter, List.mem_range'_1, decide_eq_true_eq]
    rintro x ⟨c, ⟨-, hc⟩, rfl⟩ y hy
    omega
  · simp only [List.mem_append, List.mem_map, List.mem_filter, List.mem_range'_1, decide_eq_true_eq]
    rintro x (⟨c, ⟨-, hc⟩, rfl⟩ | hx) y ⟨d, ⟨-, hd⟩, rfl⟩ <;> omega

theorem Memory.setRange_below {m : Memory} {lim : Nat} (h : m.below lim) {a n : Nat} (f : Nat → Byte)
    (hn : a + n ≤ lim) : (m.setRange a n f).below lim := by
  intro c hc
  simp only [Memory.setRange, List.mem_append, List.mem_filter, List.mem_map, List.mem_range'_1] at hc
  rcases hc with (⟨hc, -⟩ | ⟨x, hx, rfl⟩) | ⟨hc, -⟩
  · exact h c hc
  · show x < lim
    omega
  · exact h c hc

/-! ## The frame buffer -/

theorem State.fbByte_writeRange (s : State) (a n : Nat) (f : Nat → Byte) (x : Nat) :
    (s.writeRange a n f).fbByte x = if a ≤ x ∧ x < a + n then f x else s.fbByte x := by
  simp only [State.fbByte, State.writeRange_fb, State.writeRange_epoch, Memory.get?_setRange]
  by_cases h : a ≤ x ∧ x < a + n <;> simp [h]

theorem State.fbByte_memWrite (s : State) (a : Nat) (v : Byte) (x : Nat) :
    (s.memWrite a v).fbByte x = if x = a then v else s.fbByte x := by
  rw [State.memWrite, State.fbByte_writeRange]
  congr 1
  exact propext ⟨fun h => by omega, fun h => by omega⟩

theorem State.fbByte_maskedRun (s : State) (a n : Nat) (mask data : Nat → Byte) (x : Nat) :
    (s.maskedRun a n mask data).fbByte x =
      if a ≤ x ∧ x < a + n then mergeByte (s.fbByte x) (mask x) (data x) else s.fbByte x :=
  State.fbByte_writeRange ..

/-- A read depends on the buffer's bytes and the reset count alone. -/
theorem State.fbByte_congr {s t : State} (hfb : t.fb = s.fb) (he : t.epoch = s.epoch) (a : Nat) :
    t.fbByte a = s.fbByte a := by
  simp [State.fbByte, hfb, he]

@[simp] theorem State.fbByte_done (s : State) (c : Code) (a : Nat) : (s.done c).fbByte a = s.fbByte a := rfl
@[simp] theorem State.fbByte_doneWith (s : State) (c : Code) (r : Word) (a : Nat) :
    (s.doneWith c r).fbByte a = s.fbByte a := rfl

/-! ## Tile space -/

theorem State.tileRead_placeTile (s : State) (p : Word) (v : Byte) (a : Nat) :
    (s.placeTile p v).tileRead a = if a % 2 ^ 32 = p.toNat then v else s.tileRead a := by
  simp only [State.tileRead, State.placeTile_tile, Memory.get?_setRange]
  generalize a % 2 ^ 32 = b
  by_cases h : b = p.toNat
  · simp [h]
  · have : ¬ (p.toNat ≤ b ∧ b < p.toNat + 1) := by omega
    simp only [h, this, if_false]

theorem State.tileRead_congr {s t : State} (h : t.tile = s.tile) (a : Nat) : t.tileRead a = s.tileRead a := by
  simp [State.tileRead, h]

end Sys2Proof.Machine
end

