-- ==== Sys2Proof/Laws/Ops.lean ====
section
/-! SUPPORT. What each shared operation can do, said once: that a write to the buffer changes the buffer alone, that it
keeps `State.Inv` inside its bounds, and when the operations behind several commands complete. -/

namespace Sys2Proof

/-! ## Extents (R11, R144) -/

theorem Config.extentBytes_le_fbLen (c : Config) (f : Format) : c.extentBytes f.bpp ≤ c.fbLen := by
  simp only [Config.extentBytes, Config.fbLen]
  cases f <;> simp only [Format.bpp] <;> omega

end Sys2Proof

namespace Sys2Proof.Machine

/-! ## Writes to the buffer change the buffer alone -/

theorem State.writeRange_onlyFb (s : State) (a n : Nat) (f : Nat → Byte) :
    s.writeRange a n f = { s with fb := (s.writeRange a n f).fb } := rfl

theorem State.memWrite_onlyFb (s : State) (a : Nat) (v : Byte) :
    s.memWrite a v = { s with fb := (s.memWrite a v).fb } := rfl

theorem State.maskedWrite_onlyFb (s : State) (a : Nat) (m d : Byte) :
    s.maskedWrite a m d = { s with fb := (s.maskedWrite a m d).fb } := by
  simp only [State.maskedWrite]
  split <;> rfl

theorem State.maskedRun_onlyFb (s : State) (a n : Nat) (mask data : Nat → Byte) :
    s.maskedRun a n mask data = { s with fb := (s.maskedRun a n mask data).fb } := rfl

theorem State.pixWrite_onlyFb (s : State) (L : Nat) (v : Half) :
    s.pixWrite L v = { s with fb := (s.pixWrite L v).fb } := by
  simp only [State.pixWrite]
  split
  · rfl
  · rfl
  · exact State.maskedWrite_onlyFb ..

theorem State.fillExtent_onlyFb (s : State) (v : Half) :
    s.fillExtent v = { s with fb := (s.fillExtent v).fb } := rfl

theorem State.writeExtent_onlyFb (s : State) (f : Nat → Byte) :
    s.writeExtent f = { s with fb := (s.writeExtent f).fb } := rfl

theorem State.spanWrite_onlyFb (s : State) (L n : Nat) (v : Half) :
    s.spanWrite L n v = { s with fb := (s.spanWrite L n v).fb } := by
  simp only [State.spanWrite]
  split <;> rfl

theorem State.blitRow_onlyFb (s : State) (T : Tile) (g : Stage) (px py j : Nat) :
    s.blitRow T g px py j = { s with fb := (s.blitRow T g px py j).fb } := by
  simp only [State.blitRow]
  split <;> rfl

theorem State.blitRows_onlyFb (s : State) (T : Tile) (g : Stage) (px py n : Nat) :
    s.blitRows T g px py n = { s with fb := (s.blitRows T g px py n).fb } := by
  induction n with
  | zero => rfl
  | succ n ih =>
    rw [State.blitRows, State.blitRow_onlyFb, ih]

/-! ## The invariant of the memories -/

/-- The invariant looks at the memories and the parameters alone. -/
theorem State.Inv.congr {s t : State} (h : s.Inv) (hc : t.cfg = s.cfg) (hf : t.fb = s.fb) (ht : t.tile = s.tile) :
    t.Inv := by
  obtain ⟨h1, h2, h3, h4⟩ := h
  exact ⟨hf ▸ h1, by rw [hf, hc]; exact h2, ht ▸ h3, ht ▸ h4⟩

theorem State.Inv.writeRange {s : State} (h : s.Inv) {a n : Nat} (f : Nat → Byte) (hn : a + n ≤ s.cfg.fbLen) :
    (s.writeRange a n f).Inv :=
  ⟨Memory.setRange_wf h.fb_wf .., Memory.setRange_below h.fb_below f hn, h.tile_wf, h.tile_below⟩

theorem State.Inv.memWrite {s : State} (h : s.Inv) {a : Nat} (v : Byte) (ha : a < s.cfg.fbLen) :
    (s.memWrite a v).Inv := h.writeRange _ ha

theorem State.Inv.maskedWrite {s : State} (h : s.Inv) {a : Nat} (m d : Byte) (ha : a < s.cfg.fbLen) :
    (s.maskedWrite a m d).Inv := by
  simp only [State.maskedWrite]
  split
  · exact h
  · exact h.memWrite _ ha

theorem State.Inv.maskedRun {s : State} (h : s.Inv) {a n : Nat} (mask data : Nat → Byte) (hn : a + n ≤ s.cfg.fbLen) :
    (s.maskedRun a n mask data).Inv := h.writeRange _ hn

theorem State.Inv.writeExtent {s : State} (h : s.Inv) (f : Nat → Byte) : (s.writeExtent f).Inv :=
  h.writeRange f (by simpa using Config.extentBytes_le_fbLen s.cfg s.fmt)

theorem State.Inv.pixWrite {s : State} (h : s.Inv) {L : Nat} (v : Half) (hL : s.fmt.lastByte L 1 < s.cfg.fbLen) :
    (s.pixWrite L v).Inv := by
  simp only [State.pixWrite]
  cases hf : s.fmt <;> simp only [hf, Format.lastByte, Format.bpp] at hL ⊢
  · exact h.maskedWrite _ _ (by simp only [Format.pixByte, Format.bpp]; omega)
  · exact h.maskedWrite _ _ (by simp only [Format.pixByte, Format.bpp]; omega)
  · exact h.maskedWrite _ _ (by simp only [Format.pixByte, Format.bpp]; omega)
  · exact h.memWrite _ (by omega)
  · exact (h.memWrite _ (by omega)).memWrite _ (by simp only [State.memWrite_cfg]; omega)

theorem State.Inv.spanWrite {s : State} (h : s.Inv) {L n : Nat} (v : Half) (hn : 0 < n)
    (hL : s.fmt.lastByte L n < s.cfg.fbLen) : (s.spanWrite L n v).Inv := by
  simp only [State.spanWrite]
  cases hf : s.fmt <;> simp only [hf, Format.lastByte, Format.bpp] at hL ⊢
  · exact h.maskedRun _ _ (by omega)
  · exact h.maskedRun _ _ (by omega)
  · exact h.maskedRun _ _ (by omega)
  · exact h.writeRange _ (by omega)
  · exact h.writeRange _ (by omega)

/-- Row j of a tile ends no later than its last row. -/
theorem State.blitRow_last_le (s : State) (T : Tile) (px py : Nat) {j : Nat} (hj : j < T.side) :
    T.fmt.lastByte (s.cfg.lin px (py + j)) T.side ≤ s.blitLastByte T px py := by
  have h1 : py + j ≤ py + (T.side - 1) := by omega
  have h2 : s.cfg.lin px (py + j) ≤ s.cfg.lin px (py + (T.side - 1)) := by
    simpa [Config.lin] using Nat.mul_le_mul_right s.cfg.physW h1
  simp only [State.blitLastByte, Format.lastByte]
  gcongr

theorem State.Inv.blitRow {s : State} (h : s.Inv) (T : Tile) (g : Stage) (px py : Nat) {j : Nat} (hT : 0 < T.side)
    (hL : T.fmt.lastByte (s.cfg.lin px (py + j)) T.side < s.cfg.fbLen) : (s.blitRow T g px py j).Inv := by
  simp only [State.blitRow]
  generalize s.cfg.lin px (py + j) = L at hL ⊢
  cases hf : T.fmt <;> simp only [hf, Format.lastByte, Format.bpp] at hL ⊢
  · exact h.maskedRun _ _ (by omega)
  · exact h.maskedRun _ _ (by omega)
  · exact h.maskedRun _ _ (by omega)
  · exact h.writeRange _ (by omega)
  · exact h.writeRange _ (by omega)

theorem State.Inv.blitRows {s : State} (h : s.Inv) (T : Tile) (g : Stage) (px py : Nat)
    (hL : s.blitLastByte T px py < s.cfg.fbLen) {n : Nat} (hn : n ≤ T.side) : (s.blitRows T g px py n).Inv := by
  induction n with
  | zero => exact h
  | succ n ih =>
    have hc : (s.blitRows T g px py n).cfg = s.cfg := by rw [State.blitRows_onlyFb]
    refine (ih (by omega)).blitRow T g px py (by omega) ?_
    rw [hc]
    exact lt_of_le_of_lt (s.blitRow_last_le T px py (by omega)) hL

/-! ## When the shared operations complete -/

/-- R62's check: it completes in the state it was given, and only below FB_LEN. -/
theorem State.whenInside_next {s t u : State} {a : Nat} :
    s.whenInside a t = .next u ↔ a < s.cfg.fbLen ∧ u = t := by
  simp only [State.whenInside]
  split <;> simp_all [eq_comm]

/-- Everything a blit can do when it answers a next state (R160, R161, R163). -/
theorem State.blit_cases {s t : State} {x y : Half} {side tfmt : Byte} {ptr : Word} {g : Stage}
    (h : s.blit x y side tfmt ptr g = .next t) :
    (tfmt ≠ s.fmt.code ∧ t = s.done .skipFormat) ∨
    (tfmt = s.fmt.code ∧ side.toNat = 0 ∧ t = s.done .ok) ∨
    (tfmt = s.fmt.code ∧ 0 < side.toNat ∧
      s.blitLastByte ⟨s.fmt, side.toNat, ptr⟩ (s.px x) (s.py y) < s.cfg.fbLen ∧
      t = (s.blitRows ⟨s.fmt, side.toNat, ptr⟩ g (s.px x) (s.py y) side.toNat).done .ok) := by
  simp only [State.blit] at h
  split at h
  · rename_i hf
    split at h
    · rename_i h0
      exact .inr (.inl ⟨hf, h0, by simpa using h.symm⟩)
    · rename_i h0
      obtain ⟨h1, h2⟩ := State.whenInside_next.mp h
      exact .inr (.inr ⟨hf, Nat.pos_of_ne_zero h0, h1, h2⟩)
  · rename_i hf
    exact .inl ⟨hf, by simpa using h.symm⟩

/-- Everything a scroll can do (R190 to R192); it always answers a next state. -/
theorem State.scroll_cases (s : State) (count total : Nat) (f : Nat → Byte) :
    (s.fmt ≠ .grey1 ∧ s.scroll count total f = .next (s.done .skipNotGrey1)) ∨
    (s.fmt = .grey1 ∧ total ≤ count ∧
      s.scroll count total f = .next ((s.fillExtent (s.fmt.trunc s.cfg.bg)).done .ok)) ∨
    (s.fmt = .grey1 ∧ count < total ∧ s.scroll count total f = .next ((s.writeExtent f).done .ok)) := by
  simp only [State.scroll]
  split
  · rename_i hf
    split
    · rename_i ht
      exact .inr (.inl ⟨hf, ht, rfl⟩)
    · rename_i ht
      exact .inr (.inr ⟨hf, by omega, rfl⟩)
  · rename_i hf
    exact .inl ⟨hf, rfl⟩

end Sys2Proof.Machine
end

