-- ==== Sys2Proof/Laws/Bits.lean ====
section
/-! SUPPORT. The frame buffer as one sequence of bits (`20_memory.md` R55): what the masks, the merges and the pixel
operations are on it, so that later proofs about pixels and bytes are proofs about bit addresses. -/

namespace Sys2Proof

theorem Format.bpp_pos (f : Format) : 0 < f.bpp := by cases f <;> decide

theorem byte_ff_getLsbD (i : Nat) : (0xFF#8).getLsbD i = decide (i < 8) := by
  by_cases h : i < 8
  · interval_cases i <;> rfl
  · simp [BitVec.getLsbD_of_ge _ _ (Nat.le_of_not_lt h), h]

theorem Format.pixMask_getLsbD (f : Format) (i : Nat) : f.pixMask.getLsbD i = decide (i < f.bpp) := by
  rw [Format.pixMask, BitVec.getLsbD_ofNat, Nat.testBit_two_pow_sub_one]
  have : f.bpp ≤ 16 := by cases f <;> decide
  by_cases h : i < f.bpp <;> simp [h]
  omega

theorem Format.trunc_getLsbD (f : Format) (v : Half) (i : Nat) :
    (f.trunc v).getLsbD i = (v.getLsbD i && decide (i < f.bpp)) := by
  rw [Format.trunc, BitVec.getLsbD_and, Format.pixMask_getLsbD]

theorem Format.trunc_trunc (f : Format) (v : Half) : f.trunc (f.trunc v) = f.trunc v := by
  simp [Format.trunc, BitVec.and_assoc]

/-- A 16-bit value of two bytes, bit by bit. -/
theorem half_of_bytes_getLsbD (hi lo : Byte) (i : Nat) :
    BitVec.getLsbD (hi ++ lo : Half) i = if i < 8 then lo.getLsbD i else hi.getLsbD (i - 8) :=
  BitVec.getLsbD_append (x := hi) (y := lo)

/-- A bit-range mask bit by bit (R65): bit address `8 * B + (7 - i)` is bit i of byte B. -/
theorem byteMask_getLsbD {B a0 a1 i : Nat} (hi : i < 8) :
    (byteMask B a0 a1).getLsbD i = decide (a0 ≤ 8 * B + (7 - i) ∧ 8 * B + (7 - i) < a1) := by
  simp only [byteMask, BitVec.getLsbD_and, BitVec.getLsbD_ushiftRight, BitVec.getLsbD_shiftLeft, byte_ff_getLsbD]
  rw [Bool.eq_iff_iff]
  simp only [Bool.and_eq_true, Bool.not_eq_true', decide_eq_true_eq, decide_eq_false_iff_not]
  omega

end Sys2Proof

namespace Sys2Proof.Machine

/-- The bit at a bit address: position 0 is bit 7 of byte 0 (R55). -/
def State.fbBit (s : State) (A : Nat) : Bool := (s.fbByte (A / 8)).getLsbD (7 - A % 8)

theorem State.fbByte_getLsbD (s : State) (a : Nat) {i : Nat} (hi : i < 8) :
    (s.fbByte a).getLsbD i = s.fbBit (8 * a + (7 - i)) := by
  have h1 : (8 * a + (7 - i)) / 8 = a := by omega
  have h2 : 7 - (8 * a + (7 - i)) % 8 = i := by omega
  rw [State.fbBit, h1, h2]

/-- Bytes are equal when their bits are. -/
theorem State.fbByte_eq_of_bits {s t : State} {a b : Nat}
    (h : ∀ k, k < 8 → t.fbBit (8 * a + k) = s.fbBit (8 * b + k)) : t.fbByte a = s.fbByte b := by
  refine BitVec.eq_of_getLsbD_eq fun i hi => ?_
  rw [State.fbByte_getLsbD _ _ hi, State.fbByte_getLsbD _ _ hi]
  exact h _ (by omega)

theorem State.fbBit_congr {s t : State} {A B : Nat} (h : t.fbByte (A / 8) = s.fbByte (B / 8)) (hm : A % 8 = B % 8) :
    t.fbBit A = s.fbBit B := by
  rw [State.fbBit, State.fbBit, h, hm]

/-! ## Masked writes -/

/-- What a merge leaves in one bit (R16). -/
theorem mergeByte_getLsbD (old m d : Byte) (i : Nat) :
    (mergeByte old m d).getLsbD i = if m.getLsbD i then d.getLsbD i else old.getLsbD i := by
  unfold mergeByte
  split
  · rename_i h
    simp [h]
  · by_cases hi : i < 8
    · split
      · rename_i h
        rw [h, show (0xFF : Byte) = 0xFF#8 from rfl, byte_ff_getLsbD, decide_eq_true hi, if_pos rfl]
      · simp only [BitVec.getLsbD_or, BitVec.getLsbD_and, BitVec.getLsbD_not, hi, decide_true, Bool.true_and]
        cases m.getLsbD i <;> simp
    · simp [BitVec.getLsbD_of_ge _ _ (Nat.le_of_not_lt hi)]

/-- A masked run under the masks of one bit range writes exactly the bits of that range (R16, R65). -/
theorem State.fbBit_maskedRun (s : State) {a0 a1 n : Nat} (h : a0 < a1) (data : Nat → Byte)
    (hn : n = (a1 - 1) / 8 + 1 - a0 / 8) (A : Nat) :
    (s.maskedRun (a0 / 8) n (fun B => byteMask B a0 a1) data).fbBit A =
      if a0 ≤ A ∧ A < a1 then (data (A / 8)).getLsbD (7 - A % 8) else s.fbBit A := by
  subst hn
  rw [State.fbBit, State.fbByte_maskedRun]
  split
  · have hA : 8 * (A / 8) + (7 - (7 - A % 8)) = A := by omega
    rw [mergeByte_getLsbD, byteMask_getLsbD (by omega)]
    simp only [hA, decide_eq_true_eq]
    rfl
  · rw [if_neg (by omega)]
    rfl

/-! ## Pixels -/

/-- A pixel of a sub-byte format, bit by bit (R50, R56). -/
theorem State.pixRead_getLsbD (s : State) (hf : s.fmt.bpp < 8) (L i : Nat) :
    (s.pixRead L).getLsbD i = (decide (i < s.fmt.bpp) && s.fbBit (L * s.fmt.bpp + (s.fmt.bpp - 1 - i))) := by
  have key : ∀ f : Format, f.bpp < 8 →
      (((s.fbByte (f.pixByte L)).setWidth 16 >>> f.pixShift L) &&& f.pixMask).getLsbD i =
        (decide (i < f.bpp) && s.fbBit (L * f.bpp + (f.bpp - 1 - i))) := by
    intro f hf
    rw [BitVec.getLsbD_and, Format.pixMask_getLsbD, Bool.and_comm]
    by_cases h : i < f.bpp
    · simp only [h, decide_true, Bool.true_and, BitVec.getLsbD_ushiftRight, BitVec.getLsbD_setWidth]
      have h1 : f.pixByte L = (L * f.bpp + (f.bpp - 1 - i)) / 8 := by
        cases f <;> simp only [Format.bpp, Format.pixByte] at h hf ⊢ <;> omega
      have h2 : f.pixShift L + i = 7 - (L * f.bpp + (f.bpp - 1 - i)) % 8 := by
        cases f <;> simp only [Format.bpp, Format.pixShift, Format.pixOffset] at h hf ⊢ <;> omega
      rw [h1, h2, State.fbBit, decide_eq_true (by omega), Bool.true_and]
    · simp [h]
  unfold State.pixRead
  cases h : s.fmt <;> simp only [h] at hf ⊢
  · exact key .grey1 hf
  · exact key .grey2 hf
  · exact key .grey4 hf
  · simp [Format.bpp] at hf
  · simp [Format.bpp] at hf

/-- Pixels are equal when their bits are, in every format. -/
theorem State.pixRead_eq_of_bits {s t : State} {L M : Nat} (hf : t.fmt = s.fmt)
    (h : ∀ k, k < s.fmt.bpp → t.fbBit (L * s.fmt.bpp + k) = s.fbBit (M * s.fmt.bpp + k)) :
    t.pixRead L = s.pixRead M := by
  by_cases hb : s.fmt.bpp < 8
  · refine BitVec.eq_of_getLsbD_eq fun i hi => ?_
    rw [State.pixRead_getLsbD _ (hf ▸ hb), State.pixRead_getLsbD _ hb, hf]
    by_cases hi' : i < s.fmt.bpp
    · simpa [hi'] using h _ (by omega)
    · simp [hi']
  · unfold State.pixRead
    rw [hf]
    cases h' : s.fmt <;> simp only [h', Format.bpp] at hb h ⊢ <;> try omega
    · rw [State.fbByte_eq_of_bits (s := s) (t := t) (a := L) (b := M)]
      intro k hk
      have := h k hk
      rwa [Nat.mul_comm L, Nat.mul_comm M] at this
    · have hbyte : ∀ e, e < 2 → t.fbByte (2 * L + e) = s.fbByte (2 * M + e) := fun e he =>
        State.fbByte_eq_of_bits fun k hk => by
          have := h (8 * e + k) (by omega)
          rwa [show L * 16 + (8 * e + k) = 8 * (2 * L + e) + k by omega,
            show M * 16 + (8 * e + k) = 8 * (2 * M + e) + k by omega] at this
      rw [hbyte 1 (by omega), show t.fbByte (2 * L) = s.fbByte (2 * M) from hbyte 0 (by omega)]

/-- A sub-byte pixel reads the low bits of v when its bits are those of v, high bit first. -/
theorem State.pixRead_eq_trunc {t : State} {L : Nat} {v : Half} (hb : t.fmt.bpp < 8)
    (h : ∀ k, k < t.fmt.bpp → t.fbBit (L * t.fmt.bpp + k) = v.getLsbD (t.fmt.bpp - 1 - k)) :
    t.pixRead L = t.fmt.trunc v := by
  refine BitVec.eq_of_getLsbD_eq fun i hi => ?_
  rw [State.pixRead_getLsbD _ hb, Format.trunc_getLsbD]
  by_cases hi' : i < t.fmt.bpp
  · have := h (t.fmt.bpp - 1 - i) (by omega)
    rw [show t.fmt.bpp - 1 - (t.fmt.bpp - 1 - i) = i by omega] at this
    simp [hi', this]
  · simp [hi']

/-! ## From bits left alone to pixels and bytes left alone -/

/-- A change inside the bits of n pixels from `lo` leaves every other pixel. -/
theorem State.pixRead_frame {s t : State} (hf : t.fmt = s.fmt) {lo n : Nat}
    (h : ∀ A, ¬ (lo * s.fmt.bpp ≤ A ∧ A < (lo + n) * s.fmt.bpp) → t.fbBit A = s.fbBit A) {L : Nat}
    (hL : ¬ (lo ≤ L ∧ L < lo + n)) : t.pixRead L = s.pixRead L := by
  refine State.pixRead_eq_of_bits hf fun k hk => h _ ?_
  generalize lo + n = m at *
  rcases Nat.lt_or_ge L lo with h1 | h1
  · have : (L + 1) * s.fmt.bpp ≤ lo * s.fmt.bpp := Nat.mul_le_mul_right _ h1
    rw [Nat.add_one_mul] at this
    omega
  · have : m * s.fmt.bpp ≤ L * s.fmt.bpp := Nat.mul_le_mul_right _ (by omega)
    omega

/-- A change inside the bits of n pixels from `lo` leaves every byte that holds none of them. -/
theorem State.fbByte_frame {s t : State} {lo n : Nat} (hn : 0 < n)
    (h : ∀ A, ¬ (lo * s.fmt.bpp ≤ A ∧ A < (lo + n) * s.fmt.bpp) → t.fbBit A = s.fbBit A) {a : Nat}
    (ha : ¬ (s.fmt.pixByte lo ≤ a ∧ a ≤ s.fmt.lastByte lo n)) : t.fbByte a = s.fbByte a := by
  refine State.fbByte_eq_of_bits fun k hk => h _ ?_
  have : 0 < (lo + n) * s.fmt.bpp := Nat.mul_pos (by omega) s.fmt.bpp_pos
  unfold Format.pixByte Format.lastByte at ha
  omega

end Sys2Proof.Machine
end

