-- ==== Sys2Proof/Laws/Decode.lean ====
section
/-! SUPPORT. What each field of a descriptor reads in a descriptor built of words (R80, R81). -/

namespace Sys2Proof

/-! ## The bits of words and descriptors -/

theorem append4_getLsbD {n : Nat} (a b c d : BitVec n) (i : Nat) :
    (a ++ b ++ c ++ d).getLsbD i =
      if i < n then d.getLsbD i
      else if i < n + n then c.getLsbD (i - n)
      else if i < n + n + n then b.getLsbD (i - (n + n))
      else a.getLsbD (i - (n + n + n)) := by
  simp only [BitVec.getLsbD_append, Nat.sub_sub]
  grind

theorem Word.head_getLsbD (op a8 b8 : Byte) (i : Nat) :
    (Word.head op a8 b8).getLsbD i =
      if i < 8 then false else if i < 16 then b8.getLsbD (i - 8) else if i < 24 then a8.getLsbD (i - 16)
      else op.getLsbD (i - 24) := by
  have h := append4_getLsbD op a8 b8 0#8 i
  simp only [BitVec.getLsbD_zero, Nat.reduceAdd] at h
  exact h

theorem Word.pair_getLsbD (hi lo : Half) (i : Nat) :
    (Word.pair hi lo).getLsbD i = if i < 16 then lo.getLsbD i else hi.getLsbD (i - 16) :=
  BitVec.getLsbD_append (x := hi) (y := lo)

theorem Descriptor.ofWords_getLsbD (w0 w1 w2 w3 : Word) (i : Nat) :
    BitVec.getLsbD (Descriptor.ofWords w0 w1 w2 w3) i =
      if i < 32 then w0.getLsbD i else if i < 64 then w1.getLsbD (i - 32) else if i < 96 then w2.getLsbD (i - 64)
      else w3.getLsbD (i - 96) := by
  have h := append4_getLsbD w3 w2 w1 w0 i
  simp only [Nat.reduceAdd] at h
  exact h

/-! ## Fields -/

variable (op a b : Byte) (w0 w1 w2 w3 : Word) (hi lo : Half)

@[simp] theorem Descriptor.op_ofWords : Descriptor.op (.ofWords (.head op a b) w1 w2 w3) = op := by
  refine BitVec.eq_of_getLsbD_eq fun i h => ?_
  simp only [Descriptor.op, BitVec.getLsbD_extractLsb', Descriptor.ofWords_getLsbD, Word.head_getLsbD]
  grind

@[simp] theorem Descriptor.a8_ofWords : Descriptor.a8 (.ofWords (.head op a b) w1 w2 w3) = a := by
  refine BitVec.eq_of_getLsbD_eq fun i h => ?_
  simp only [Descriptor.a8, BitVec.getLsbD_extractLsb', Descriptor.ofWords_getLsbD, Word.head_getLsbD]
  grind

@[simp] theorem Descriptor.b8_ofWords : Descriptor.b8 (.ofWords (.head op a b) w1 w2 w3) = b := by
  refine BitVec.eq_of_getLsbD_eq fun i h => ?_
  simp only [Descriptor.b8, BitVec.getLsbD_extractLsb', Descriptor.ofWords_getLsbD, Word.head_getLsbD]
  grind

@[simp] theorem Descriptor.x_ofWords : Descriptor.x (.ofWords w0 (.pair hi lo) w2 w3) = lo := by
  refine BitVec.eq_of_getLsbD_eq fun i h => ?_
  simp only [Descriptor.x, BitVec.getLsbD_extractLsb', Descriptor.ofWords_getLsbD, Word.pair_getLsbD]
  grind

@[simp] theorem Descriptor.y_ofWords : Descriptor.y (.ofWords w0 (.pair hi lo) w2 w3) = hi := by
  refine BitVec.eq_of_getLsbD_eq fun i h => ?_
  simp only [Descriptor.y, BitVec.getLsbD_extractLsb', Descriptor.ofWords_getLsbD, Word.pair_getLsbD]
  grind

@[simp] theorem Descriptor.value_ofWords : Descriptor.value (.ofWords w0 w1 (.pair hi lo) w3) = lo := by
  refine BitVec.eq_of_getLsbD_eq fun i h => ?_
  simp only [Descriptor.value, BitVec.getLsbD_extractLsb', Descriptor.ofWords_getLsbD, Word.pair_getLsbD]
  grind

@[simp] theorem Descriptor.vsh_ofWords : Descriptor.vsh (.ofWords w0 w1 (.pair hi lo) w3) = hi := by
  refine BitVec.eq_of_getLsbD_eq fun i h => ?_
  simp only [Descriptor.vsh, BitVec.getLsbD_extractLsb', Descriptor.ofWords_getLsbD, Word.pair_getLsbD]
  grind

@[simp] theorem Descriptor.w2_ofWords : Descriptor.w2 (.ofWords w0 w1 w2 w3) = w2 := by
  refine BitVec.eq_of_getLsbD_eq fun i h => ?_
  simp only [Descriptor.w2, BitVec.getLsbD_extractLsb', Descriptor.ofWords_getLsbD]
  grind

@[simp] theorem Descriptor.w3_ofWords : Descriptor.w3 (.ofWords w0 w1 w2 w3) = w3 := by
  refine BitVec.eq_of_getLsbD_eq fun i h => ?_
  simp only [Descriptor.w3, BitVec.getLsbD_extractLsb', Descriptor.ofWords_getLsbD]
  grind

@[simp] theorem Descriptor.pat_ofWords : Descriptor.pat (.ofWords w0 w1 w2 (.pair hi lo)) = lo := by
  refine BitVec.eq_of_getLsbD_eq fun i h => ?_
  simp only [Descriptor.pat, BitVec.getLsbD_extractLsb', Descriptor.ofWords_getLsbD, Word.pair_getLsbD]
  grind

@[simp] theorem Descriptor.repl_ofWords : Descriptor.repl (.ofWords w0 w1 w2 (.pair hi lo)) = hi := by
  refine BitVec.eq_of_getLsbD_eq fun i h => ?_
  simp only [Descriptor.repl, BitVec.getLsbD_extractLsb', Descriptor.ofWords_getLsbD, Word.pair_getLsbD]
  grind

/-! ## Masking a descriptor -/

theorem Word.pair_and (a b c d : Half) : Word.pair a b &&& Word.pair c d = Word.pair (a &&& c) (b &&& d) := by
  refine BitVec.eq_of_getLsbD_eq fun i hi => ?_
  rw [BitVec.getLsbD_and, Word.pair_getLsbD, Word.pair_getLsbD, Word.pair_getLsbD]
  split <;> simp

theorem Word.head_and (a b c z d e f : Byte) :
    (a ++ b ++ c ++ z : Word) &&& Word.head d e f = Word.head (a &&& d) (b &&& e) (c &&& f) := by
  refine BitVec.eq_of_getLsbD_eq fun i hi => ?_
  rw [BitVec.getLsbD_and, Word.head_getLsbD, Word.head_getLsbD,
    show BitVec.getLsbD (a ++ b ++ c ++ z : Word) i = _ from append4_getLsbD a b c z i]
  simp only [Nat.reduceAdd, BitVec.getLsbD_and]
  split_ifs <;> simp

theorem Descriptor.ofWords_and (a b c d e f g h : Word) :
    Descriptor.ofWords a b c d &&& Descriptor.ofWords e f g h =
      Descriptor.ofWords (a &&& e) (b &&& f) (c &&& g) (d &&& h) := by
  refine BitVec.eq_of_getLsbD_eq fun i hi => ?_
  rw [BitVec.getLsbD_and, Descriptor.ofWords_getLsbD, Descriptor.ofWords_getLsbD, Descriptor.ofWords_getLsbD]
  split_ifs <;> simp

/-- Two adjacent 16-bit fields are one 32-bit field. -/
theorem Word.pair_extract (d : Descriptor) (k : Nat) :
    Word.pair (d.extractLsb' (k + 16) 16) (d.extractLsb' k 16) = d.extractLsb' k 32 := by
  refine BitVec.eq_of_getLsbD_eq fun i hi => ?_
  rw [Word.pair_getLsbD]
  simp only [BitVec.getLsbD_extractLsb', hi, decide_true, Bool.true_and]
  split
  · rename_i h
    simp [h]
  · rw [decide_eq_true (by omega), Bool.true_and]
    congr 1
    omega

/-- A descriptor is made of its fields (R81), Z8 among them. -/
theorem Descriptor.eq_ofWords (d : Descriptor) :
    d = .ofWords (d.op ++ d.a8 ++ d.b8 ++ d.extractLsb' 0 8) (.pair d.y d.x) (.pair d.vsh d.value)
      (.pair d.repl d.pat) := by
  rw [show Word.pair d.y d.x = _ from Word.pair_extract d 32, show Word.pair d.vsh d.value = _ from Word.pair_extract d 64,
    show Word.pair d.repl d.pat = _ from Word.pair_extract d 96]
  refine BitVec.eq_of_getLsbD_eq fun i hi => ?_
  rw [Descriptor.ofWords_getLsbD,
    show BitVec.getLsbD (d.op ++ d.a8 ++ d.b8 ++ d.extractLsb' 0 8 : Word) i = _ from append4_getLsbD ..]
  simp only [Nat.reduceAdd, Descriptor.op, Descriptor.a8, Descriptor.b8, BitVec.getLsbD_extractLsb']
  split_ifs <;> (rw [decide_eq_true (by omega), Bool.true_and]; congr 1; omega)

/-! ## Everything the decoder can answer -/

/-- One case per opcode of the map, and one for the reserved ones (R86, R88). -/
theorem decode_cases (d : Descriptor) :
    (d.op = 0x00 ∧ decode d = .ok .nop) ∨
    (d.op = 0x01 ∧ decode d = .ok (.init d.a8 d.x d.y d.value d.vsh)) ∨
    (d.op = 0x02 ∧ decode d = .ok (.setfmt d.a8)) ∨
    (d.op = 0x03 ∧ decode d = .ok (.setvs d.x d.y d.value d.vsh)) ∨
    (d.op = 0x04 ∧ decode d = .ok (.getreg d.a8)) ∨
    (d.op = 0x10 ∧ decode d = .ok (.poke d.x d.y d.value)) ∨
    (d.op = 0x11 ∧ decode d = .ok (.peek d.x d.y)) ∨
    (d.op = 0x20 ∧ decode d = .ok .clear) ∨
    (d.op = 0x21 ∧ decode d = .ok (.fill d.value)) ∨
    (d.op = 0x22 ∧ decode d = .ok (.span d.x d.y d.w3 d.value)) ∨
    (d.op = 0x30 ∧ decode d = .ok (.blit d.x d.y d.a8 d.b8 d.w2)) ∨
    (d.op = 0x31 ∧ decode d = .ok (.blitr d.x d.y d.a8 d.b8 d.w2 d.pat d.repl)) ∨
    (d.op = 0x40 ∧ decode d = .ok (.scrlr d.w2)) ∨
    (d.op = 0x41 ∧ decode d = .ok (.scrlc d.w2)) ∨
    (d.op ∉ definedOpcodes ∧ decode d = .error (.reservedOpcode d.op)) := by
  by_cases h : d.op ∈ definedOpcodes
  · have key : ∀ op ∈ definedOpcodes, op = 0 ∨ op = 1 ∨ op = 2 ∨ op = 3 ∨ op = 4 ∨ op = 0x10 ∨ op = 0x11 ∨ op = 0x20 ∨
        op = 0x21 ∨ op = 0x22 ∨ op = 0x30 ∨ op = 0x31 ∨ op = 0x40 ∨ op = 0x41 := by decide
    rcases key _ h with h | h | h | h | h | h | h | h | h | h | h | h | h | h <;> simp [decode, h]
  · have ne : ∀ op, op ∈ definedOpcodes → d.op ≠ op := fun op ho he => h (he ▸ ho)
    have hd : decode d = .error (.reservedOpcode d.op) := by
      unfold decode
      iterate 14 rw [if_neg (ne _ (by decide))]
    simp only [h, hd, not_false_eq_true, and_self, or_true]

end Sys2Proof
end

