-- ==== Sys2Proof/Laws/Exec.lean ====
section
/-! SUPPORT. Everything a command can do when it answers a next state, said once for all fourteen; and on what the
operations behind the drawing commands depend. -/

namespace Sys2Proof.Machine

/-- The shapes of a completed command (`00_scope.md` R17): skipped or ILLEGAL; done with the buffer alone changed; a
register or a pixel read; SETFMT; SETVS; the three outcomes of INIT. -/
theorem exec_cases {i : Instr} {s t : State} (h : exec i s = .next t) :
    (∃ c, (c = .illegal ∨ ((c = .skipFormat ∨ c = .skipNotGrey1) ∧ i.opcode ∈ [0x30, 0x31, 0x40, 0x41])) ∧
      t = s.done c) ∨
    (∃ m, i.opcode ∈ [0x00, 0x10, 0x20, 0x21, 0x22, 0x30, 0x31, 0x40, 0x41] ∧ (i.opcode = 0x00 → m = s.fb) ∧
      t = ({ s with fb := m } : State).done .ok) ∨
    (∃ v, i.opcode ∈ [0x04, 0x11] ∧ t = s.doneWith .ok v) ∨
    (∃ f, i.opcode = 0x02 ∧ t = ({ s with fmt := f } : State).done .ok) ∨
    (∃ c r w h, i.opcode = 0x03 ∧ t = (s.setVirtualScreen c r w h).done .ok) ∨
    (∃ f c r w h, i.opcode = 0x01 ∧ s.inited = true ∧ t = s.initialise f c r w h) ∨
    (∃ f c r w h, i.opcode = 0x01 ∧ s.inited = false ∧ t = s.requestBringUp.initialise f c r w h) ∨
    (i.opcode = 0x01 ∧ s.inited = false ∧ t = s.requestBringUp.doneWith .initFail 0) := by
  cases i <;> simp only [exec] at h
  case nop => cases h; exact .inr (.inl ⟨s.fb, by simp [Instr.opcode], fun _ => rfl, rfl⟩)
  case init =>
    unfold execInit at h
    split at h <;> cases h
    · exact .inl ⟨_, .inl rfl, rfl⟩
    · split_ifs with h1 h2
      · exact .inr (.inr (.inr (.inr (.inr (.inl ⟨_, _, _, _, _, rfl, h1, rfl⟩)))))
      · exact .inr (.inr (.inr (.inr (.inr (.inr (.inl ⟨_, _, _, _, _, rfl, by simpa using h1, rfl⟩))))))
      · exact .inr (.inr (.inr (.inr (.inr (.inr (.inr ⟨rfl, by simpa using h1, rfl⟩))))))
  case setfmt =>
    unfold execSetfmt at h
    split at h <;> cases h
    · exact .inl ⟨_, .inl rfl, rfl⟩
    · exact .inr (.inr (.inr (.inl ⟨_, rfl, rfl⟩)))
  case setvs => cases h; exact .inr (.inr (.inr (.inr (.inl ⟨_, _, _, _, rfl, rfl⟩))))
  case getreg =>
    unfold execGetreg at h
    split at h <;> cases h
    · exact .inl ⟨_, .inl rfl, rfl⟩
    · exact .inr (.inr (.inl ⟨_, by simp [Instr.opcode], rfl⟩))
  case poke =>
    obtain ⟨-, rfl⟩ := State.whenInside_next.mp h
    rw [State.pixWrite_onlyFb]
    exact .inr (.inl ⟨_, by simp [Instr.opcode], by simp [Instr.opcode], rfl⟩)
  case peek =>
    obtain ⟨-, rfl⟩ := State.whenInside_next.mp h
    exact .inr (.inr (.inl ⟨_, by simp [Instr.opcode], rfl⟩))
  case clear => cases h; exact .inr (.inl ⟨_, by simp [Instr.opcode], by simp [Instr.opcode], rfl⟩)
  case fill => cases h; exact .inr (.inl ⟨_, by simp [Instr.opcode], by simp [Instr.opcode], rfl⟩)
  case span =>
    unfold execSpan at h
    split at h
    · cases h
      exact .inr (.inl ⟨s.fb, by simp [Instr.opcode], by simp [Instr.opcode], rfl⟩)
    · obtain ⟨-, rfl⟩ := State.whenInside_next.mp h
      rw [State.spanWrite_onlyFb]
      exact .inr (.inl ⟨_, by simp [Instr.opcode], by simp [Instr.opcode], rfl⟩)
  case blit =>
    rcases State.blit_cases h with ⟨-, rfl⟩ | ⟨-, -, rfl⟩ | ⟨-, -, -, rfl⟩
    · exact .inl ⟨_, .inr ⟨.inl rfl, by simp [Instr.opcode]⟩, rfl⟩
    · exact .inr (.inl ⟨s.fb, by simp [Instr.opcode], by simp [Instr.opcode], rfl⟩)
    · rw [State.blitRows_onlyFb]
      exact .inr (.inl ⟨_, by simp [Instr.opcode], by simp [Instr.opcode], rfl⟩)
  case blitr =>
    rcases State.blit_cases h with ⟨-, rfl⟩ | ⟨-, -, rfl⟩ | ⟨-, -, -, rfl⟩
    · exact .inl ⟨_, .inr ⟨.inl rfl, by simp [Instr.opcode]⟩, rfl⟩
    · exact .inr (.inl ⟨s.fb, by simp [Instr.opcode], by simp [Instr.opcode], rfl⟩)
    · rw [State.blitRows_onlyFb]
      exact .inr (.inl ⟨_, by simp [Instr.opcode], by simp [Instr.opcode], rfl⟩)
  case scrlr n =>
    rw [execScrlr] at h
    rcases s.scroll_cases n.toNat s.cfg.totalRows (s.rowScrolled n.toNat) with ⟨-, e⟩ | ⟨-, -, e⟩ | ⟨-, -, e⟩ <;>
      rw [e] at h <;> cases h
    · exact .inl ⟨_, .inr ⟨.inr rfl, by simp [Instr.opcode]⟩, rfl⟩
    · exact .inr (.inl ⟨_, by simp [Instr.opcode], by simp [Instr.opcode], rfl⟩)
    · exact .inr (.inl ⟨_, by simp [Instr.opcode], by simp [Instr.opcode], rfl⟩)
  case scrlc n =>
    rw [execScrlc] at h
    rcases s.scroll_cases n.toNat s.cfg.totalCols (s.colScrolled (n.toNat * s.cfg.cellW)) with
      ⟨-, e⟩ | ⟨-, -, e⟩ | ⟨-, -, e⟩ <;> rw [e] at h <;> cases h
    · exact .inl ⟨_, .inr ⟨.inr rfl, by simp [Instr.opcode]⟩, rfl⟩
    · exact .inr (.inl ⟨_, by simp [Instr.opcode], by simp [Instr.opcode], rfl⟩)
    · exact .inr (.inl ⟨_, by simp [Instr.opcode], by simp [Instr.opcode], rfl⟩)

/-- What a command leaves that a reset does not reset either: parameters, tile space, the host's plan, the count of
resets; and the transport, but for the one request an INIT may make. -/
theorem exec_keeps_outside {i : Instr} {s t : State} (h : exec i s = .next t) :
    (t.cfg = s.cfg ∧ t.tile = s.tile ∧ t.inputs = s.inputs ∧ t.epoch = s.epoch) ∧
    ((t.bru = s.bru ∧ t.bruCount = s.bruCount) ∨
     (i.opcode = 0x01 ∧ s.inited = false ∧ t.bru = s.bru.tail ∧ t.bruCount = s.bruCount + 1)) := by
  rcases exec_cases h with ⟨_, -, rfl⟩ | ⟨_, -, -, rfl⟩ | ⟨_, -, rfl⟩ | ⟨_, -, rfl⟩ | ⟨_, _, _, _, -, rfl⟩ |
    ⟨_, _, _, _, _, -, -, rfl⟩ | ⟨_, _, _, _, _, ho, hi, rfl⟩ | ⟨ho, hi, rfl⟩
  · exact ⟨⟨rfl, rfl, rfl, rfl⟩, .inl ⟨rfl, rfl⟩⟩
  · exact ⟨⟨rfl, rfl, rfl, rfl⟩, .inl ⟨rfl, rfl⟩⟩
  · exact ⟨⟨rfl, rfl, rfl, rfl⟩, .inl ⟨rfl, rfl⟩⟩
  · exact ⟨⟨rfl, rfl, rfl, rfl⟩, .inl ⟨rfl, rfl⟩⟩
  · exact ⟨⟨rfl, rfl, rfl, rfl⟩, .inl ⟨rfl, rfl⟩⟩
  · exact ⟨⟨rfl, rfl, rfl, rfl⟩, .inl ⟨rfl, rfl⟩⟩
  · exact ⟨⟨rfl, rfl, rfl, rfl⟩, .inr ⟨ho, hi, rfl, rfl⟩⟩
  · exact ⟨⟨rfl, rfl, rfl, rfl⟩, .inr ⟨ho, hi, rfl, rfl⟩⟩

/-- Everything an abandoned command can leave (R232): the state a reset in its place leaves, but for the one bring-up
request it may have made. -/
theorem State.abandon_next {s t : State} {d : Descriptor} {reached : Bool} (h : s.abandon d reached = .next t) :
    t = s.afterReset ∨
    (reached = true ∧ s.inited = false ∧ (∃ i, decode d = .ok i ∧ i.opcode = 0x01) ∧
      t = s.requestBringUp.afterReset) := by
  unfold State.abandon State.runDescriptor at h
  split at h
  · rename_i hr
    cases hd : decode d with
    | error e => simp only [hd] at h; cases h; exact .inl rfl
    | ok i =>
      simp only [hd] at h
      cases he : exec i s with
      | fault f => simp only [he] at h; cases h
      | refused f => simp only [he] at h; cases h
      | next u =>
        simp only [he] at h
        cases h
        obtain ⟨⟨h1, h2, h3, h4⟩, ⟨h5, h6⟩ | ⟨ho, hi, h5, h6⟩⟩ := exec_keeps_outside he
        · exact .inl (by simp only [State.afterReset, h1, h2, h3, h4, h5, h6])
        · exact .inr ⟨hr, hi, ⟨i, rfl, ho⟩, by
            simp only [State.afterReset, State.requestBringUp, h1, h2, h3, h4, h5, h6]⟩
  · cases h; exact .inl rfl

/-! ## On what the drawing operations depend -/

theorem State.pixWrite_fb_congr {s s' : State} (hf : s'.fmt = s.fmt) (hb : s'.fb = s.fb) (he : s'.epoch = s.epoch)
    (L : Nat) (v : Half) : (s'.pixWrite L v).fb = (s.pixWrite L v).fb := by
  have e : ∀ a, s'.fbByte a = s.fbByte a := State.fbByte_congr hb he
  unfold State.pixWrite
  rw [hf]
  split
  · simp [State.memWrite, hb]
  · simp [State.memWrite, hb]
  · unfold State.maskedWrite
    split
    · exact hb
    · simp [State.memWrite, hb, e]

theorem State.spanWrite_fb_congr {s s' : State} (hf : s'.fmt = s.fmt) (hb : s'.fb = s.fb) (he : s'.epoch = s.epoch)
    (L n : Nat) (v : Half) : (s'.spanWrite L n v).fb = (s.spanWrite L n v).fb := by
  have e : ∀ a, s'.fbByte a = s.fbByte a := State.fbByte_congr hb he
  unfold State.spanWrite
  rw [hf]
  split
  · simp [hb]
  · simp [hb]
  · simp [State.maskedRun, hb, e]

theorem State.tileByte_congr {s s' : State} (ht : s'.tile = s.tile) (T : Tile) (j k : Nat) :
    s'.tileByte T j k = s.tileByte T j k := State.tileRead_congr ht _

theorem State.tilePix_congr {s s' : State} (ht : s'.tile = s.tile) (T : Tile) (i j : Nat) :
    s'.tilePix T i j = s.tilePix T i j := by
  simp [State.tilePix, State.tileByte_congr ht]

theorem State.srcByte_congr {s s' : State} (ht : s'.tile = s.tile) (T : Tile) (g : Stage) (j k : Nat) :
    s'.srcByte T g j k = s.srcByte T g j k := by
  unfold State.srcByte
  simp only [State.tileByte_congr ht, State.tilePix_congr ht]

theorem State.alignMux_congr {s s' : State} (ht : s'.tile = s.tile) (T : Tile) (g : Stage) (j d o : Nat) :
    s'.alignMux T g j d o = s.alignMux T g j d o := by
  simp [State.alignMux, State.srcByte_congr ht]

theorem State.blitRow_fb_congr {s s' : State} (hc : s'.cfg = s.cfg) (hb : s'.fb = s.fb) (ht : s'.tile = s.tile)
    (he : s'.epoch = s.epoch) (T : Tile) (g : Stage) (px py j : Nat) :
    (s'.blitRow T g px py j).fb = (s.blitRow T g px py j).fb := by
  have e : ∀ a, s'.fbByte a = s.fbByte a := State.fbByte_congr hb he
  unfold State.blitRow
  simp only [hc, State.srcByte_congr ht, State.alignMux_congr ht, State.maskedRun, e]
  split <;> simp [hb]

@[simp] theorem State.blitRows_cfg (s : State) (T : Tile) (g : Stage) (px py n : Nat) :
    (s.blitRows T g px py n).cfg = s.cfg := by rw [State.blitRows_onlyFb]
@[simp] theorem State.blitRows_fmt (s : State) (T : Tile) (g : Stage) (px py n : Nat) :
    (s.blitRows T g px py n).fmt = s.fmt := by rw [State.blitRows_onlyFb]
@[simp] theorem State.blitRows_tile (s : State) (T : Tile) (g : Stage) (px py n : Nat) :
    (s.blitRows T g px py n).tile = s.tile := by rw [State.blitRows_onlyFb]
@[simp] theorem State.blitRows_epoch (s : State) (T : Tile) (g : Stage) (px py n : Nat) :
    (s.blitRows T g px py n).epoch = s.epoch := by rw [State.blitRows_onlyFb]

theorem State.blitRows_fb_congr {s s' : State} (hc : s'.cfg = s.cfg) (hb : s'.fb = s.fb) (ht : s'.tile = s.tile)
    (he : s'.epoch = s.epoch) (T : Tile) (g : Stage) (px py n : Nat) :
    (s'.blitRows T g px py n).fb = (s.blitRows T g px py n).fb := by
  induction n with
  | zero => exact hb
  | succ n ih => exact State.blitRow_fb_congr (by simp [hc]) ih (by simp [ht]) (by simp [he]) ..

end Sys2Proof.Machine
end

