-- ==== Sys2Proof/Laws/PerInstr.lean ====
section
/-! SUPPORT. What holds of every command as syntax, one lemma per constructor. -/

namespace Sys2Proof.Laws.EncodedOpcode

/-- The encoder puts the command's opcode into OP, and that opcode is a defined one (R86, R93). -/
def Statement (i : Instr) : Prop := Descriptor.op (encode i) = i.opcode ∧ i.opcode ∈ definedOpcodes

theorem nop : Statement (.nop) :=
  ⟨Descriptor.op_ofWords .., by simp [Instr.opcode, definedOpcodes]⟩

theorem init (fmt : Byte) (ocol orow vsw vsh : Half) : Statement (.init fmt ocol orow vsw vsh) :=
  ⟨Descriptor.op_ofWords .., by simp [Instr.opcode, definedOpcodes]⟩

theorem setfmt (fmt : Byte) : Statement (.setfmt fmt) :=
  ⟨Descriptor.op_ofWords .., by simp [Instr.opcode, definedOpcodes]⟩

theorem setvs (ocol orow vsw vsh : Half) : Statement (.setvs ocol orow vsw vsh) :=
  ⟨Descriptor.op_ofWords .., by simp [Instr.opcode, definedOpcodes]⟩

theorem getreg (idx : Byte) : Statement (.getreg idx) :=
  ⟨Descriptor.op_ofWords .., by simp [Instr.opcode, definedOpcodes]⟩

theorem poke (x y value : Half) : Statement (.poke x y value) :=
  ⟨Descriptor.op_ofWords .., by simp [Instr.opcode, definedOpcodes]⟩

theorem peek (x y : Half) : Statement (.peek x y) :=
  ⟨Descriptor.op_ofWords .., by simp [Instr.opcode, definedOpcodes]⟩

theorem clear : Statement (.clear) :=
  ⟨Descriptor.op_ofWords .., by simp [Instr.opcode, definedOpcodes]⟩

theorem fill (value : Half) : Statement (.fill value) :=
  ⟨Descriptor.op_ofWords .., by simp [Instr.opcode, definedOpcodes]⟩

theorem span (x y : Half) (len : Word) (value : Half) : Statement (.span x y len value) :=
  ⟨Descriptor.op_ofWords .., by simp [Instr.opcode, definedOpcodes]⟩

theorem blit (x y : Half) (side tfmt : Byte) (ptr : Word) : Statement (.blit x y side tfmt ptr) :=
  ⟨Descriptor.op_ofWords .., by simp [Instr.opcode, definedOpcodes]⟩

theorem blitr (x y : Half) (side tfmt : Byte) (ptr : Word) (pat repl : Half) :
    Statement (.blitr x y side tfmt ptr pat repl) :=
  ⟨Descriptor.op_ofWords .., by simp [Instr.opcode, definedOpcodes]⟩

theorem scrlr (count : Word) : Statement (.scrlr count) :=
  ⟨Descriptor.op_ofWords .., by simp [Instr.opcode, definedOpcodes]⟩

theorem scrlc (count : Word) : Statement (.scrlc count) :=
  ⟨Descriptor.op_ofWords .., by simp [Instr.opcode, definedOpcodes]⟩

end Sys2Proof.Laws.EncodedOpcode
end

