-- ==== Sys2Proof/Tests/Slice0.lean ====
section
/-! SUPPORT. The model's own tests: what the checks refuse, the words of every command, one or two steps per command with
results from the spec's vectors (`95_test_vectors.md`), and a witness for every statement that has hypotheses. -/

namespace Sys2Proof.Tests

open Sys2Proof.Machine

/-! ## Helpers -/

/-- What an answer's next state looks like through `f`. -/
def seen {α : Type} (a : Answer) (f : State → α) : Option α :=
  match a with
  | .next t => some (f t)
  | .fault _ => none
  | .refused _ => none

/-- An answer is the out-of-buffer fault. -/
def faulted (a : Answer) : Bool :=
  match a with
  | .next _ => false
  | .fault .outOfBuffer => true
  | .refused _ => false

/-- CFG_T right after reset, in a given format, the first n buffer bytes holding `old`. -/
def start (f : Format) (old : Byte) (n : Nat) : State :=
  { State.reset with fmt := f, fb := Memory.setRange [] 0 n (fun _ => old) }

/-- The same with tile bytes at an address. -/
def State.withTile (s : State) (a : Nat) (bytes : List Byte) : State :=
  { s with tile := (List.range' a bytes.length).zip bytes }

/-! ## Well-formedness: an ill-formed term for each check -/

theorem test_wf_init_format : Instr.wellFormed (.init 5 0 0 16 16) = false := by decide
theorem test_wf_setfmt_format : Instr.wellFormed (.setfmt 5) = false := by decide
theorem test_wf_getreg_index : Instr.wellFormed (.getreg 8) = false := by decide
theorem test_wf_accepts : Instr.wellFormed (.init 4 0 0 0 0) = true ∧ Instr.wellFormed (.getreg 7) = true ∧
    Instr.wellFormed (.blit 0 0 8 9 0) = true := by decide

/-- R90: the descriptor of `95_test_vectors.md` E with a non-zero Z8 is not clean. -/
theorem test_clean_z8 : Descriptor.isClean (.ofWords 0x300800FF 0x00000003 0x00001000 0) = false ∧
    Descriptor.isClean (.ofWords 0x30080000 0x00000003 0x00001000 0) = true ∧
    Descriptor.isClean (.ofWords 0x05000000 0 0 0) = false := by decide

/-- R10: each constraint broken once, from the sound CFG_T. -/
theorem test_config_refused :
    Config.legal Config.cfgT = true ∧
    Config.legal { Config.cfgT with physW := 0 } = false ∧
    Config.legal { Config.cfgT with physW := 65536 } = false ∧
    Config.legal { Config.cfgT with physW := 12, cellW := 4 } = false ∧
    Config.legal { Config.cfgT with physH := 0 } = false ∧
    Config.legal { Config.cfgT with physH := 65536 } = false ∧
    Config.legal { Config.cfgT with cellW := 0 } = false ∧
    Config.legal { Config.cfgT with cellW := 3 } = false ∧
    Config.legal { Config.cfgT with cellH := 0 } = false ∧
    Config.legal { Config.cfgT with cellH := 5 } = false := by decide

/-! ## The words of every command, from `95_test_vectors.md` E -/

theorem test_decode_nop : decode (.ofWords 0x00000000 0 0 0) = .ok .nop := by decide
theorem test_decode_init : decode (.ofWords 0x01040000 0x00010002 0x00080008 0) = .ok (.init 4 2 1 8 8) := by decide
theorem test_decode_setfmt : decode (.ofWords 0x02020000 0 0 0) = .ok (.setfmt 2) := by decide
theorem test_decode_setvs : decode (.ofWords 0x03000000 0x00040008 0x00080008 0) = .ok (.setvs 8 4 8 8) := by decide
theorem test_decode_getreg : decode (.ofWords 0x04070000 0 0 0) = .ok (.getreg 7) := by decide
theorem test_decode_poke : decode (.ofWords 0x10000000 0x00000005 0x00000002 0) = .ok (.poke 5 0 2) := by decide
theorem test_decode_peek : decode (.ofWords 0x11000000 0x00000007 0 0) = .ok (.peek 7 0) := by decide
theorem test_decode_clear : decode (.ofWords 0x20000000 0 0 0) = .ok .clear := by decide
theorem test_decode_fill : decode (.ofWords 0x21000000 0 0x0000F800 0) = .ok (.fill 0xF800) := by decide
theorem test_decode_span :
    decode (.ofWords 0x22000000 0x00000003 0x00000001 0x0000000A) = .ok (.span 3 0 10 1) := by decide
theorem test_decode_blit :
    decode (.ofWords 0x30080000 0x00000003 0x00001000 0) = .ok (.blit 3 0 8 0 0x1000) := by decide
theorem test_decode_blitr : decode (.ofWords 0x31030200 0x00020001 0x00002000 0x000E0001) =
    .ok (.blitr 1 2 3 2 0x2000 1 0xE) := by decide
theorem test_decode_scrlr : decode (.ofWords 0x40000000 0 0x00000001 0) = .ok (.scrlr 1) := by decide
theorem test_decode_scrlc : decode (.ofWords 0x41000000 0 0x00000001 0) = .ok (.scrlc 1) := by decide
theorem test_decode_reserved :
    decode (.ofWords 0x05000000 0 0 0) = .error (.reservedOpcode 0x05) ∧
    decode (.ofWords 0x99000000 1 2 3) = .error (.reservedOpcode 0x99) := by decide

/-- R93: the encoder gives the words of the same table. -/
theorem test_encode : encode (.blitr 1 2 3 2 0x2000 1 0xE) = .ofWords 0x31030200 0x00020001 0x00002000 0x000E0001 ∧
    encode (.init 4 2 1 8 8) = .ofWords 0x01040000 0x00010002 0x00080008 0 ∧
    encode (.span 3 0 10 1) = .ofWords 0x22000000 0x00000003 0x00000001 0x0000000A := by decide

/-- The first words of the fourteen commands with every other word zero. -/
def tableWords : List Nat :=
  [0x00000000, 0x01000000, 0x02000000, 0x03000000, 0x04000000, 0x10000000, 0x11000000, 0x20000000, 0x21000000,
    0x22000000, 0x30000000, 0x31000000, 0x40000000, 0x41000000]

/-- Every row of the opcode table decodes, by its first word alone. -/
theorem test_table_words_decode :
    tableWords.map (fun w => (decodeTableWord 32 w).map Instr.opcode) = definedOpcodes.map some := by decide

/-- Every row of the opcode table runs as the first command after reset. -/
theorem test_table_words_run :
    tableWords.map (fun w => seen (step (State.reset.withFetchWord 32 w)) (fun _ => true)) =
      tableWords.map (fun _ => some true) := by decide

/-! ## One step of every command -/

theorem test_nop : seen (exec .nop (start .grey2 0 0)) (fun t => (t.last, t.fmt, t.rsp)) =
    some (.ok, .grey2, [⟨.ok, 0⟩]) := by decide

/-- Vector G1: a failed bring-up. -/
theorem test_init_fails :
    seen (exec (.init 1 1 2 3 4) { State.reset with bru := [false] })
      (fun t => (t.readReg 0, t.readReg 1, t.readReg 3, t.readReg 5)) =
    some (some 0x00000400, some 0, some 0x00100010, some 0) := by decide

/-- Vector G3: a bring-up that succeeds. -/
theorem test_init_succeeds :
    seen (exec (.init 1 1 2 3 4) { State.reset with bru := [true] })
      (fun t => (t.readReg 0, t.readReg 1, t.readReg 2, t.readReg 3, t.readReg 5)) =
    some (some 1, some 1, some 0x00020001, some 0x00040003, some 1) := by decide

/-- R112's example: SETFMT RGB565, after which FORMAT reads 4. -/
theorem test_setfmt : seen (exec (.setfmt 4) State.reset) (fun t => t.readReg 1) = some (some 4) := by decide

/-- Vector G5: a reserved format code. -/
theorem test_setfmt_reserved : seen (exec (.setfmt 5) { State.reset with inited := true, fmt := .rgb565 })
    (fun t => (t.readReg 0, t.readReg 1)) = some (some 0x00000301, some 4) := by decide

/-- R113's example. -/
theorem test_setvs : seen (exec (.setvs 8 4 8 8) State.reset) (fun t => (t.readReg 2, t.readReg 3)) =
    some (some 0x00040008, some 0x00080008) := by decide

/-- Vector G6: STATUS as it was before the command. -/
theorem test_getreg_status : seen (exec (.getreg 0) { State.reset with inited := true, last := .illegal })
    (fun t => (t.readReg 0, t.readReg 5, t.rsp)) = some (some 1, some 0x00000301, [⟨.ok, 0x00000301⟩]) := by decide

/-- Vectors G8 and G10. -/
theorem test_getreg_indices :
    seen (exec (.getreg 8) { State.reset with result := 7 }) (fun t => (t.last, t.result)) = some (.illegal, 7) ∧
    seen (exec (.getreg 6) State.reset) (fun t => t.result) = some 0x00080008 := by decide

/-- Vector K6. -/
theorem test_poke_grey2 : seen (exec (.poke 5 0 2) (start .grey2 0xFF 4))
    (fun t => (t.fbByte 0, t.fbByte 1, t.fbByte 2)) = some (0xFF, 0xEF, 0xFF) := by decide

/-- Vectors K12 and K16: low byte first; the first byte beyond the buffer. -/
theorem test_poke_rgb565 : seen (exec (.poke 2 0 0xA1B2) (start .rgb565 0 8))
    (fun t => (t.fbByte 3, t.fbByte 4, t.fbByte 5, t.fbByte 6)) = some (0, 0xB2, 0xA1, 0) ∧
    faulted (exec (.poke 0 256 1) (start .grey1 0 1)) = true := by decide

/-- R131's example: byte 3 holds 0xA7. -/
theorem test_peek_grey4 : seen (exec (.peek 7 0) (start .grey4 0xA7 4)) (fun t => t.result) = some 7 ∧
    seen (exec (.peek 6 0) (start .grey4 0xA7 4)) (fun t => t.result) = some 0xA := by decide

/-- Vector F9, GREY4: BG = 0x1234 in four bits, on bytes 0 to 127. -/
theorem test_clear : seen (exec .clear { start .grey4 0xCC 129 with cfg := { Config.cfgT with bg := 0x1234 } })
    (fun t => (t.fbByte 0, t.fbByte 127, t.fbByte 128)) = some (0x44, 0x44, 0xCC) := by decide

/-- Vectors F3 and F2. -/
theorem test_fill_grey2 : seen (exec (.fill 2) (start .grey2 0xCC 65))
    (fun t => (t.fbByte 0, t.fbByte 63, t.fbByte 64)) = some (0xAA, 0xAA, 0xCC) ∧
    seen (exec (.fill 2) (start .grey1 0xCC 33)) (fun t => (t.fbByte 31, t.fbByte 32)) = some (0x00, 0xCC) := by decide

/-- A sound configuration of eight pixels, whose extents are 1, 2, 4, 8 and 16 bytes. -/
def cfgLine : Config := { physW := 8, physH := 1, cellW := 8, cellH := 1, bg := 0 }

/-- The bytes of vector F6, on the eight-pixel screen. -/
theorem test_fill_rgb565 : cfgLine.legal = true ∧ seen (exec (.fill 0xF800) { start .rgb565 0xCC 20 with cfg := cfgLine })
    (fun t => (t.fbByte 0, t.fbByte 1, t.fbByte 14, t.fbByte 15, t.fbByte 16)) =
    some (0x00, 0xF8, 0x00, 0xF8, 0xCC) := by decide

/-- Vector P1. -/
theorem test_span_grey1 : seen (exec (.span 3 0 10 1) (start .grey1 0 4))
    (fun t => (t.fbByte 0, t.fbByte 1, t.fbByte 2)) = some (0x1F, 0xF8, 0x00) := by decide

/-- Vectors P10 and P13. -/
theorem test_span_wide : seen (exec (.span 1 0 4 9) (start .grey4 0 4))
    (fun t => (t.fbByte 0, t.fbByte 1, t.fbByte 2)) = some (0x09, 0x99, 0x90) ∧
    seen (exec (.span 1 0 2 0xBEEF) (start .rgb565 0 8))
      (fun t => (t.fbByte 1, t.fbByte 2, t.fbByte 3, t.fbByte 4, t.fbByte 5, t.fbByte 6)) =
    some (0, 0xEF, 0xBE, 0xEF, 0xBE, 0) := by decide

/-- Vector B1, x = 3: scanlines 0 and 7. -/
theorem test_blit_grey1 : seen (exec (.blit 3 0 8 0 0x1000) (State.withTile (start .grey1 0xFF 16) 0x1000
      [0xA5, 0xA5, 0xA5, 0xA5, 0xA5, 0xA5, 0xA5, 0xA5]))
    (fun t => (t.fbByte 0, t.fbByte 1, t.fbByte 14, t.fbByte 15)) = some (0xF4, 0xBF, 0xF4, 0xBF) := by decide

/-- Vector B6, SIDE = 3, x = 1: an odd side at an odd column. -/
theorem test_blit_grey4 : seen (exec (.blit 1 0 3 2 0x1000) (State.withTile (start .grey4 0xFF 24) 0x1000
      [0x12, 0x34, 0x56, 0x78, 0x9A, 0xBC]))
    (fun t => ([0, 1, 2, 8, 9, 10, 16, 17, 18].map t.fbByte)) =
    some [0xF1, 0x23, 0xFF, 0xF5, 0x67, 0xFF, 0xF9, 0xAB, 0xFF] := by decide

/-- Vector B12. -/
theorem test_blitr_grey4 : seen (exec (.blitr 1 2 3 2 0x2000 1 0xE) (State.withTile (start .grey4 0 40) 0x2000
      [0x1F, 0x20, 0x11, 0x10, 0x23, 0x10]))
    (fun t => ([16, 17, 24, 25, 32, 33].map t.fbByte)) = some [0x0E, 0xF2, 0x0E, 0xEE, 0x02, 0x3E] := by decide

/-- Vector B10: the whole 16-bit pixel is compared. -/
theorem test_blitr_rgb565 : seen (exec (.blitr 3 1 2 4 0x1000 0x1312 0xABCD) (State.withTile (start .rgb565 0 0) 0x1000
      [0x10, 0x11, 0x12, 0x13, 0x14, 0x15, 0x16, 0x17]))
    (fun t => ([38, 39, 40, 41, 70, 71, 72, 73].map t.fbByte)) =
    some [0x10, 0x11, 0xCD, 0xAB, 0x14, 0x15, 0x16, 0x17] := by decide

/-- A GREY1 buffer with `fb[a] = a`, as before the vectors X. -/
def ramp (c : Config) : State :=
  { State.reset with cfg := c, fb := Memory.setRange [] 0 33 (fun a => BitVec.ofNat 8 a) }

/-- Vector X8. -/
theorem test_scrlr : seen (exec (.scrlr 1) (ramp { Config.cfgT with bg := 1 }))
    (fun t => ([0, 15, 16, 31, 32].map t.fbByte)) = some [0x10, 0x1F, 0xFF, 0xFF, 0x20] := by decide

/-- Vectors X4 and X11. -/
theorem test_scrlr_ends : seen (exec (.scrlr 0xFFFFFFFF) (ramp Config.cfgT)) (fun t => ([0, 31, 32].map t.fbByte)) =
      some [0x00, 0x00, 0x20] ∧
    seen (exec (.scrlr 1) { ramp Config.cfgT with fmt := .grey2 }) (fun t => (t.last, t.fbByte 17)) =
      some (.skipNotGrey1, 0x11) := by decide

/-- Vector X6: a byte shift. -/
theorem test_scrlc : seen (exec (.scrlc 1) (ramp Config.cfgT)) (fun t => ([0, 1, 2, 3, 30, 31, 32].map t.fbByte)) =
    some [0x01, 0x00, 0x03, 0x00, 0x1F, 0x00, 0x20] := by decide

/-- Vector X10: a bit shift across a byte. -/
theorem test_scrlc_bits : seen (exec (.scrlc 3) (ramp { Config.cfgT with cellW := 4, bg := 1 }))
    (fun t => ([0, 1, 30, 31, 32].map t.fbByte)) = some [0x1F, 0xFF, 0xFF, 0xFF, 0x20] := by decide

/-! ## Witnesses: every statement with hypotheses has a state and operands that meet them -/

/-- BLIT with a non-zero Z8. -/
def dirtyBlit : Descriptor := .ofWords 0x300800FF 0x00000003 0x00001000 0

theorem witness_EncodeDecodeKeepsFormatBits : decode dirtyBlit = .ok (.blit 3 0 8 0 0x1000) ∧
    dirtyBlit ≠ encode (.blit 3 0 8 0 0x1000) := by decide

theorem witness_ReservedBitsIgnored :
    decode (.ofWords 0x30080000 0x00000003 0x00001000 0) = .ok (.blit 3 0 8 0 0x1000) ∧
    dirtyBlit &&& Instr.formatMask (.blit 3 0 8 0 0x1000) =
      .ofWords 0x30080000 0x00000003 0x00001000 0 &&& Instr.formatMask (.blit 3 0 8 0 0x1000) ∧
    dirtyBlit ≠ .ofWords 0x30080000 0x00000003 0x00001000 0 := by decide

theorem witness_OpcodeSelectsCommand : dirtyBlit.op ∈ definedOpcodes ∧ decode dirtyBlit = .ok (.blit 3 0 8 0 0x1000) ∧
    Descriptor.op (.ofWords 0x42000000 0 0 0) ∉ definedOpcodes := by decide

/-- The opcodes on both sides of the last edge of the map. -/
theorem witness_ReservedOpcodeIsIllegal :
    State.reset.cfg.legal = true ∧
    (State.reset.present (.ofWords 0x42000000 0 0 0)).inputs = [.command (.ofWords 0x42000000 0 0 0)] ∧
    Descriptor.op (.ofWords 0x42000000 0 0 0) ∉ definedOpcodes ∧
    Descriptor.op (.ofWords 0x41000000 0 0 0) ∈ definedOpcodes ∧
    Descriptor.op (.ofWords 0xFF000000 0 0 0) ∉ definedOpcodes := by decide

theorem witness_ResetValues : Config.cfgT.legal = true ∧ cfgLine.legal = true := by decide

theorem witness_ResetInputResets : ∃ s : State, s.cfg.legal = true ∧ s.inputs = .reset :: [] ∧ s.inited = true ∧
    s.fb ≠ [] :=
  ⟨{ start .grey4 1 4 with inited := true, inputs := [.reset] }, by decide⟩

/-- A state whose memories list bytes keeps the invariant over a POKE. -/
theorem witness_StepKeepsInvariant : ∃ s t : State, s.Inv ∧ s.fb ≠ [] ∧ s.tile ≠ [] ∧ step s = .next t ∧
    t.fb ≠ s.fb :=
  ⟨State.present (State.withTile (start .indexed8 7 2) 0xFFFFFFFF [9]) (encode (.poke 5 0 1)), _,
    ⟨by decide, by decide, by decide, by decide⟩, by decide, by decide, rfl, by decide⟩

theorem witness_StepRunsDecodedCommand : ∃ (s : State) (d : Descriptor) (i : Instr), s.cfg.legal = true ∧
    s.inputs = [.command d, .reset] ∧ decode d = .ok i :=
  ⟨{ State.reset with inputs := [.command dirtyBlit, .reset] }, dirtyBlit, .blit 3 0 8 0 0x1000, by decide⟩

theorem witness_IdleHoldsState : State.reset.cfg.legal = true ∧ State.reset.inputs = [] := by decide

theorem witness_TileBytePlaced : ∃ s : State, s.cfg.legal = true ∧ s.inputs = .tile 0xFFFFFFFF 0xA5 :: [] ∧
    (2 ^ 33 - 1) % 2 ^ 32 = BitVec.toNat (0xFFFFFFFF : Word) :=
  ⟨{ State.reset with inputs := [.tile 0xFFFFFFFF 0xA5] }, by decide⟩

theorem witness_NopEffect : Descriptor.op (.ofWords 0x00FFFFFF 1 2 3) = 0x00 := by decide

/-- The first reserved code; the last defined one; the three states an INIT finds. -/
theorem witness_InitEffect : 4 < (5 : Byte).toNat ∧ Format.ofCode 4 = some .rgb565 ∧
    Descriptor.op (.ofWords 0x01050000 0 0 0) = 0x01 ∧
    ({ State.reset with inited := true } : State).inited = true ∧
    (State.reset.inited = false ∧ ({ State.reset with bru := [true] } : State).bringUpAnswer = true) ∧
    ({ State.reset with bru := [false] } : State).bringUpAnswer = false := by decide

theorem witness_SetfmtEffect : 4 < (5 : Byte).toNat ∧ Format.ofCode 4 = some .rgb565 ∧
    Descriptor.op (.ofWords 0x02050000 0 0 0) = 0x02 := by decide

theorem witness_SetvsEffect : Descriptor.op (.ofWords 0x03000000 0 0 0) = 0x03 := by decide

theorem witness_GetregEffect : 7 < (8 : Byte).toNat ∧ (7 : Byte).toNat ≤ 7 ∧
    Descriptor.op (.ofWords 0x04080000 0 0 0) = 0x04 := by decide

theorem witness_RegisterMap : 7 < (8 : Byte).toNat ∧ State.reset.readReg 8 = none ∧
    State.reset.readReg 7 = some 0 := by decide

/-- For each clause a command that does what the clause allows. -/
theorem witness_OnlyNamedCommandsWrite :
    (∃ t, exec (.init 3 1 2 3 4) { State.reset with bru := [true] } = .next t ∧ t.inited ≠ false ∧
      t.fmt ≠ State.reset.fmt ∧ (t.vsCol, t.vsRow, t.vsW, t.vsH) ≠ (0, 0, 16, 16) ∧ t.result ≠ 0 ∧ t.bruCount ≠ 0) ∧
    ∃ t, exec (.poke 0 0 1) (start .indexed8 0 1) = .next t ∧ t.fb ≠ (start .indexed8 0 1).fb :=
  ⟨⟨_, rfl, by decide⟩, ⟨_, rfl, by decide⟩⟩

theorem witness_OneResponsePerCommand :
    (∃ t, exec (.getreg 7) State.reset = .next t ∧ Instr.opcode (.getreg 7) ∈ [0x01, 0x04, 0x11] ∧
      t.last ≠ .illegal) ∧
    (∃ t, exec (.getreg 8) State.reset = .next t ∧ ¬ t.last ≠ .illegal) ∧
    ∃ t, exec .nop State.reset = .next t ∧ Instr.opcode .nop ∉ [0x01, 0x04, 0x11] :=
  ⟨⟨_, rfl, by decide⟩, ⟨_, rfl, by decide⟩, ⟨_, rfl, by decide⟩⟩

theorem witness_InitedClearedOnlyByReset : ∃ s t : State, step s = .next t ∧ s.inited = true ∧
    s.inputs.head? ≠ some .reset ∧ ∀ d reached, s.inputs.head? ≠ some (.resetDuring d reached) :=
  ⟨({ State.reset with inited := true } : State).present 0, _, rfl, rfl, by decide, fun _ _ h => by cases h⟩

/-- One descriptor for each of the three codes. -/
theorem witness_SkipIsTotal :
    (∃ t, State.reset.runDescriptor (encode (.blit 0 0 8 9 0)) = .next t ∧ t.last = .skipFormat) ∧
    (∃ t, (start .grey2 0 0).runDescriptor (encode (.scrlc 1)) = .next t ∧ t.last = .skipNotGrey1) ∧
    ∃ t, State.reset.runDescriptor (.ofWords 0x05000000 0 0 0) = .next t ∧ t.last = .illegal :=
  ⟨⟨_, rfl, by decide⟩, ⟨_, rfl, by decide⟩, ⟨_, rfl, by decide⟩⟩

/-- The last pixel inside FB_LEN and the first outside it (vector K16), and spans and tiles that end there. -/
theorem witness_CompletesExactlyInBuffer :
    State.reset.inBuffer (.poke 15 255 1) = true ∧ State.reset.inBuffer (.poke 0 256 1) = false ∧
    State.reset.inBuffer (.span 0 0 4096 1) = true ∧ State.reset.inBuffer (.span 0 0 4097 1) = false ∧
    State.reset.inBuffer (.span 0 65535 0 1) = true ∧
    State.reset.inBuffer (.blit 8 248 8 0 0) = true ∧ State.reset.inBuffer (.blit 9 248 8 0 0) = false ∧
    State.reset.inBuffer (.blit 9 65535 8 1 0) = true := by decide

theorem witness_InBoundsHostNeverFaults : State.reset.screenFits = true ∧
    State.reset.hostInBounds (.poke 15 15 1) = true ∧ State.reset.hostInBounds (.span 6 15 10 1) = true ∧
    State.reset.hostInBounds (.blit 0 0 16 0 0) = true ∧ State.reset.hostInBounds (.poke 16 0 1) = false := by decide

theorem witness_StatusAndScreenSizeDoNotMatter : Instr.opcode (.poke 1 2 3) ∉ [0x01, 0x03, 0x04] := by decide

/-- The largest sum that is a 16-bit coordinate. -/
theorem witness_VirtualOffsetTranslates : ∃ s : State,
    (9 : Half).toNat = (1 : Half).toNat + s.vsCol.toNat ∧ (65535 : Half).toNat = (65531 : Half).toNat + s.vsRow.toNat :=
  ⟨{ State.reset with vsCol := 8, vsRow := 4 }, by decide⟩

theorem witness_WholeScreenCommandsIgnoreOffset : Instr.opcode (.scrlc 1) ∈ [0x20, 0x21, 0x40, 0x41] := by decide

theorem witness_ExtentGeometry : Config.cfgT.legal = true ∧ Config.cfgT.extentBytes 1 = 32 := by decide

/-- The middle byte of a run over three bytes. -/
theorem witness_ByteMaskSelectsRun : 7 / 8 < 1 ∧ 1 < (17 - 1) / 8 ∧ byteMask 1 7 17 = 0xFF := by decide

/-- The last pixel of the buffer, and a byte that does not hold it. -/
theorem witness_PokeEffect : Format.lastByte .grey1 (State.reset.linIndex 15 255) 1 < State.reset.cfg.fbLen ∧
    ¬ (Format.pixByte .grey1 (State.reset.linIndex 15 255) ≤ 510 ∧
      510 ≤ Format.lastByte .grey1 (State.reset.linIndex 15 255) 1) ∧
    Descriptor.op (encode (.poke 15 255 1)) = 0x10 := by decide

theorem witness_PeekEffect : Format.lastByte .grey1 (State.reset.linIndex 15 255) 1 < State.reset.cfg.fbLen ∧
    Descriptor.op (encode (.peek 15 255)) = 0x11 := by decide

/-- Two pixels of one byte. -/
theorem witness_PokePeekLaws : State.reset.inBuffer (.peek 0 0) = true ∧ State.reset.inBuffer (.peek 1 0) = true ∧
    State.reset.linIndex 1 0 ≠ State.reset.linIndex 0 0 := by decide

theorem witness_FormatsAreViewsOfTheSameBytes : ∃ s : State, s.fmt = .rgb565 ∧
    s.inBuffer (.poke 15 15 0xA1B2) = true :=
  ⟨start .rgb565 0 0, by decide⟩

/-- The largest value and the last field of each sub-byte format. -/
theorem witness_ExpandedByteHoldsValue : (3 : Half).toNat < 4 ∧ (15 : Half).toNat < 16 ∧
    (Format.bpp .grey1 < 8 ∧ (1 : Half).toNat < 2 ^ Format.bpp .grey1 ∧ 7 < Format.ppb .grey1) ∧
    Format.bpp .grey4 < 8 ∧ (15 : Half).toNat < 2 ^ Format.bpp .grey4 ∧ 1 < Format.ppb .grey4 := by decide

/-- The last byte and pixel of the extent and the first byte beyond it. -/
theorem witness_FillEffect : 31 < State.reset.cfg.extentBytes (Format.bpp State.reset.fmt) ∧
    State.reset.cfg.extentBytes (Format.bpp State.reset.fmt) ≤ 32 ∧ State.reset.cfg.legal = true ∧
    255 < State.reset.cfg.extentPix ∧ Descriptor.op (encode (.fill 1)) = 0x21 := by decide

theorem witness_ClearEffect : 31 < State.reset.cfg.extentBytes (Format.bpp State.reset.fmt) ∧
    State.reset.cfg.extentBytes (Format.bpp State.reset.fmt) ≤ 32 ∧
    State.reset.cfg.legal = true ∧ 255 < State.reset.cfg.extentPix ∧ Descriptor.op (encode .clear) = 0x20 := by decide

/-- The longest span from the first pixel with its first and last byte, a byte outside a short one, and the byte formats
at their last pixel. -/
theorem witness_SpanEffect :
    (0 < (4096 : Word).toNat ∧ Format.lastByte .grey1 (State.reset.linIndex 0 0) (4096 : Word).toNat < 512 ∧
      Format.bpp .grey1 < 8 ∧ State.reset.linIndex 0 0 * 1 / 8 ≤ 0 ∧
      511 ≤ ((State.reset.linIndex 0 0 + 4096) * 1 - 1) / 8) ∧
    ¬ (Format.pixByte .grey1 (State.reset.linIndex 3 0) ≤ 2 ∧
      2 ≤ Format.lastByte .grey1 (State.reset.linIndex 3 0) 10) ∧
    (Format.lastByte .indexed8 (State.reset.linIndex 15 31) 1 < 512 ∧ State.reset.linIndex 15 31 = 511) ∧
    (Format.lastByte .rgb565 (State.reset.linIndex 15 15) 1 < 512 ∧ State.reset.linIndex 15 15 = 255) ∧
    State.reset.cfg.fbLen = 512 ∧ Descriptor.op (encode (.span 0 0 1 1)) = 0x22 := by decide

/-- A pixel inside a span and the pixels next to its two ends. -/
theorem witness_SpanFillsPixels : 0 < (10 : Word).toNat ∧
    Format.lastByte .grey1 (State.reset.linIndex 3 0) (10 : Word).toNat < State.reset.cfg.fbLen ∧
    (State.reset.linIndex 3 0 ≤ 12 ∧ 12 < State.reset.linIndex 3 0 + 10) ∧
    ¬ (State.reset.linIndex 3 0 ≤ 2) ∧ ¬ (13 < State.reset.linIndex 3 0 + 10) := by decide

theorem witness_TenPixelLine : State.reset.cfg = Config.cfgT ∧ State.reset.fmt = .grey1 ∧ State.reset.vsCol = 0 ∧
    State.reset.vsRow = 0 := by decide

theorem witness_FormatMismatchSkips : 4 < (5 : Byte).toNat ∧ (4 : Byte) ≠ State.reset.fmt.code := by decide

/-- The lowest place a tile fits inside FB_LEN; a pixel that the next row covers and one that none covers, for a tile
wider than the screen. -/
theorem witness_BlitDrawsTile : 0 < (8 : Byte).toNat ∧
    State.reset.blitLastByte ⟨.grey1, 8, 0⟩ (State.reset.px 8) (State.reset.py 248) < State.reset.cfg.fbLen ∧
    ¬ State.reset.blitLastByte ⟨.grey1, 8, 0⟩ (State.reset.px 9) (State.reset.py 248) < State.reset.cfg.fbLen ∧
    (Config.lin Config.cfgT 0 1 ≤ Config.lin Config.cfgT 0 0 + 16 ∧
      Config.lin Config.cfgT 0 0 + 16 < Config.lin Config.cfgT 0 1 + 17) ∧
    ¬ (Config.lin Config.cfgT 0 1 ≤ Config.lin Config.cfgT 0 0 + 15) ∧
    Descriptor.op (encode (.blit 8 248 8 0 0)) = 0x30 := by decide

/-- Uncovered pixels and bytes exist, and so do covered ones. -/
theorem witness_BlitDrawsTile_clauses :
    (¬ State.reset.inTileRow ⟨.grey1, 1, 0⟩ 0 0 0 1) ∧ State.reset.inTileRow ⟨.grey1, 1, 0⟩ 0 0 0 0 ∧
    ¬ State.reset.inTileRowBytes ⟨.grey1, 1, 0⟩ 0 0 0 1 := by
  unfold State.inTileRow State.inTileRowBytes
  decide

theorem witness_BlitrDrawsSubstitutedTile : 0 < (8 : Byte).toNat ∧
    State.reset.blitLastByte ⟨.grey1, 8, 0⟩ (State.reset.px 8) (State.reset.py 248) < State.reset.cfg.fbLen ∧
    Descriptor.op (encode (.blitr 8 248 8 0 0 1 0)) = 0x31 := by decide

/-- Two patterns that differ above the active width only. -/
theorem witness_BlitrEqualPatternIsBlit : State.reset.fmt.trunc 3 = State.reset.fmt.trunc 1 := by decide

theorem witness_AlignmentSameForEveryRow : Config.cfgT.legal = true ∧ Format.bpp .grey4 < 8 := by decide

theorem witness_AlignMuxIsFunnelShift : 7 ≤ 7 ∧ 0 < 8 ∧ ¬ 1 < 8 - 7 ∧ 0 < 8 - 7 := by decide

/-- Rows of three bytes, and of a part of one byte. -/
theorem witness_MaskGeneratorFormulas : 0 < 17 ∧ 1 < (3 % 8 + 17 + 7) / 8 ∧ (0 < 1 ∧ 1 + 1 < (3 % 8 + 17 + 7) / 8) ∧
    (2 % 8 + 3 + 7) / 8 = 1 := by decide

theorem witness_GlyphRowCases : Config.lin Config.cfgT 0 0 % 8 = 0 ∧ Config.lin Config.cfgT 7 0 % 8 ≠ 0 := by decide

theorem witness_ScrollSkippedOutsideGrey1 : (start .rgb565 0 0).fmt ≠ .grey1 := by decide

/-- The last count that shifts and the first that clears; the bytes where the clauses meet. -/
theorem witness_RowScrollEffect : State.reset.fmt = .grey1 ∧ (1 : Word).toNat < State.reset.cfg.totalRows ∧
    State.reset.cfg.totalRows ≤ (2 : Word).toNat ∧ (start .grey2 0 0).fmt ≠ .grey1 ∧
    15 < (State.reset.cfg.totalRows - 1) * State.reset.cfg.pitch ∧
    ((State.reset.cfg.totalRows - 1) * State.reset.cfg.pitch ≤ 16 ∧ 16 < State.reset.cfg.extentBytes 1) ∧
    State.reset.cfg.extentBytes 1 ≤ 32 ∧ State.reset.cfg.legal = true ∧ 15 < State.reset.cfg.physW ∧
    Descriptor.op (encode (.scrlr 1)) = 0x40 := by decide

theorem witness_ColumnScrollEffect : State.reset.fmt = .grey1 ∧ (1 : Word).toNat < State.reset.cfg.totalCols ∧
    State.reset.cfg.totalCols ≤ (2 : Word).toNat ∧ (start .grey2 0 0).fmt ≠ .grey1 ∧
    State.reset.cfg.extentBytes 1 ≤ 32 ∧ State.reset.cfg.legal = true ∧ 15 < State.reset.cfg.physW ∧
    Descriptor.op (encode (.scrlc 1)) = 0x41 := by decide

theorem witness_ScrollLaws : State.reset.cfg.legal = true ∧ State.reset.fmt = .grey1 ∧
    (start .grey2 0 0).fmt ≠ .grey1 ∧ State.reset.cfg.totalRows ≤ (2 : Word).toNat ∧
    State.reset.cfg.totalCols ≤ (2 : Word).toNat ∧
    (3 : Word).toNat = (1 : Word).toNat + (2 : Word).toNat := by decide

/-- R232: no response, registers at reset values; the answer that an INIT had asked for is used up, one it had not asked
for is not. -/
theorem test_reset_during_init :
    seen (step { State.reset with bru := [true, false], inputs := [.resetDuring (encode (.init 4 0 0 8 8)) true] })
      (fun t => (t.inited, t.fmt, t.rsp, t.bru)) = some (false, .grey1, [], [false]) ∧
    seen (step { State.reset with bru := [true, false], inputs := [.resetDuring (encode (.init 4 0 0 8 8)) false] })
      (fun t => (t.inited, t.fmt, t.rsp, t.bru)) = some (false, .grey1, [], [true, false]) := by decide

/-- R232, R62: a command with a pixel at FB_LEN stops only once it has reached it. -/
theorem test_reset_during_poke :
    faulted (step { State.reset with inputs := [.resetDuring (encode (.poke 0 256 1)) true] }) = true ∧
    seen (step { start .indexed8 7 4 with inputs := [.resetDuring (encode (.poke 0 256 1)) false] })
      (fun t => (t.fmt, t.fb.length, t.epoch)) = some (.grey1, 0, 1) := by decide

/-- For each clause an abandoned command that meets it. -/
theorem witness_ResetDuringCommandAbandons : ∃ s : State, s.cfg.legal = true ∧
    s.inputs = .resetDuring (encode (.init 4 0 0 8 8)) true :: [] ∧
    (Descriptor.op (encode (.init 4 0 0 8 8)) = 0x01 ∧ (Descriptor.a8 (encode (.init 4 0 0 8 8))).toNat ≤ 4 ∧
      s.inited = false) ∧
    (¬ (Descriptor.a8 (encode (.init 5 0 0 8 8))).toNat ≤ 4 ∧ s.inBuffer (.init 5 0 0 8 8) = true ∧
      decode (encode (.init 5 0 0 8 8)) = .ok (.init 5 0 0 8 8)) ∧
    (decode (encode (.poke 0 256 1)) = .ok (.poke 0 256 1) ∧ s.inBuffer (.poke 0 256 1) = false) ∧
    s.inBuffer (.poke 15 255 1) = true :=
  ⟨{ State.reset with inputs := [.resetDuring (encode (.init 4 0 0 8 8)) true] }, by decide⟩

end Sys2Proof.Tests
end

section
/-! Steps that are refused, and what a command that completes answers (`00_scope.md` R10, `10_state.md` R28). -/

namespace Sys2Proof

/-- The nine constraints of R10. -/
theorem Config.legal_iff (c : Config) : c.legal = true ↔
    8 ≤ c.physW ∧ c.physW ≤ 65528 ∧ c.physW % 8 = 0 ∧ 1 ≤ c.physH ∧ c.physH ≤ 65535 ∧
      1 ≤ c.cellW ∧ c.physW % c.cellW = 0 ∧ 1 ≤ c.cellH ∧ c.physH % c.cellH = 0 := by
  simp only [Config.legal, Bool.and_eq_true, decide_eq_true_eq, and_assoc]

end Sys2Proof

namespace Sys2Proof.Machine

/-! ## No command refuses (log entry 2) -/

theorem State.whenInside_ne_refused (s t : State) (a : Nat) (r : Refusal) : s.whenInside a t ≠ .refused r := by
  unfold State.whenInside
  split <;> nofun

theorem State.blit_ne_refused (s : State) (x y : Half) (side tfmt : Byte) (ptr : Word) (g : Stage) (r : Refusal) :
    s.blit x y side tfmt ptr g ≠ .refused r := by
  simp only [State.blit]
  split_ifs
  · nofun
  · exact s.whenInside_ne_refused _ _ r
  · nofun

theorem State.scroll_ne_refused (s : State) (count total : Nat) (f : Nat → Byte) (r : Refusal) :
    s.scroll count total f ≠ .refused r := by
  rcases s.scroll_cases count total f with ⟨-, e⟩ | ⟨-, -, e⟩ | ⟨-, -, e⟩ <;> rw [e] <;> nofun

theorem exec_ne_refused (i : Instr) (s : State) (r : Refusal) : exec i s ≠ .refused r := by
  cases i <;> simp only [exec]
  case nop => nofun
  case init => unfold execInit; split <;> nofun
  case setfmt => unfold execSetfmt; split <;> nofun
  case setvs => nofun
  case getreg => unfold execGetreg; split <;> nofun
  case poke => exact s.whenInside_ne_refused _ _ r
  case peek => exact s.whenInside_ne_refused _ _ r
  case clear => nofun
  case fill => nofun
  case span =>
    unfold execSpan
    split
    · nofun
    · exact s.whenInside_ne_refused _ _ r
  case blit => exact s.blit_ne_refused _ _ _ _ _ _ r
  case blitr => exact s.blit_ne_refused _ _ _ _ _ _ r
  case scrlr => exact s.scroll_ne_refused _ _ _ r
  case scrlc => exact s.scroll_ne_refused _ _ _ r

theorem State.runDescriptor_ne_refused (s : State) (d : Descriptor) (r : Refusal) :
    s.runDescriptor d ≠ .refused r := by
  unfold State.runDescriptor
  split
  · exact exec_ne_refused _ s r
  · nofun

theorem State.abandon_ne_refused (s : State) (d : Descriptor) (reached : Bool) (r : Refusal) :
    s.abandon d reached ≠ .refused r := by
  unfold State.abandon
  split
  · cases h : s.runDescriptor d with
    | next t => nofun
    | fault f => nofun
    | refused q => exact absurd h (s.runDescriptor_ne_refused d q)
  · nofun

theorem State.accept_ne_refused (s : State) (inp : HostInput) (r : Refusal) : s.accept inp ≠ .refused r := by
  cases inp with
  | command d => exact s.runDescriptor_ne_refused d r
  | tile addr v => nofun
  | reset => nofun
  | resetDuring d reached => exact s.abandon_ne_refused d reached r

theorem step_ne_refused_of_legal {s : State} (hl : s.cfg.legal = true) (r : Refusal) : step s ≠ .refused r := by
  unfold step
  rw [if_pos hl]
  split
  · nofun
  · exact State.accept_ne_refused _ _ r

theorem step_of_illegal {s : State} (hl : ¬ s.cfg.legal = true) : step s = .refused .illegalConfig := if_neg hl

/-- Settles O14: the configuration check comes first, and nothing after it refuses. -/
theorem illegalConfigurationRefused : Obligations.IllegalConfigurationRefused := by
  unfold Obligations.IllegalConfigurationRefused
  intro s
  rw [← Config.legal_iff]
  exact ⟨fun h hl => step_ne_refused_of_legal hl _ h, step_of_illegal⟩

/-! ## One response per command (R28, R31) -/

/-- NOP and the commands that write the buffer or skip are none of INIT, GETREG and PEEK, which latch RESULT. -/
theorem not_latching_of_nop_or_draws : ∀ op ∈ ([0x00, 0x10, 0x20, 0x21, 0x22, 0x30, 0x31, 0x40, 0x41] : List Byte),
    op ∉ ([0x01, 0x04, 0x11] : List Byte) := by decide

/-- Settles O23: in each shape of a completed command, the response is the one its `done` or `doneWith` appends. -/
theorem oneResponsePerCommand : Obligations.OneResponsePerCommand := by
  unfold Obligations.OneResponsePerCommand
  intro i s t h
  rcases exec_cases h with ⟨c, hc, rfl⟩ | ⟨m, ho, -, rfl⟩ | ⟨v, ho, rfl⟩ | ⟨f, ho, rfl⟩ | ⟨_, _, _, _, ho, rfl⟩ |
    ⟨_, _, _, _, _, ho, -, rfl⟩ | ⟨_, _, _, _, _, ho, -, rfl⟩ | ⟨ho, -, rfl⟩
  · have hn : ¬ (i.opcode ∈ [0x01, 0x04, 0x11] ∧ c ≠ .illegal) := by
      rintro ⟨ho, hne⟩
      rcases hc with hc | ⟨-, ho'⟩
      · exact hne hc
      · exact not_latching_of_nop_or_draws _ (List.mem_of_mem_drop (i := 5) ho') ho
    exact ⟨0, rfl, fun h => absurd h hn, fun _ => ⟨rfl, rfl⟩⟩
  · exact ⟨0, rfl, fun h => absurd h.1 (not_latching_of_nop_or_draws _ ho), fun _ => ⟨rfl, rfl⟩⟩
  · exact ⟨v, rfl, fun _ => rfl, fun hn => absurd ⟨List.mem_cons_of_mem _ ho, nofun⟩ hn⟩
  · exact ⟨0, rfl, by simp [ho], fun _ => ⟨rfl, rfl⟩⟩
  · exact ⟨0, rfl, by simp [ho], fun _ => ⟨rfl, rfl⟩⟩
  · exact ⟨1, rfl, fun _ => rfl, fun hn => absurd ⟨by simp [ho], nofun⟩ hn⟩
  · exact ⟨1, rfl, fun _ => rfl, fun hn => absurd ⟨by simp [ho], nofun⟩ hn⟩
  · exact ⟨0, rfl, fun _ => rfl, fun hn => absurd ⟨by simp [ho], nofun⟩ hn⟩

end Sys2Proof.Machine
end

section
/-! Masked writes and bit-range masks (`00_scope.md` R16, `20_memory.md` R65). -/

namespace Sys2Proof.Machine

theorem State.fbByte_maskedWrite (s : State) (a : Nat) (m d : Byte) (b : Nat) :
    (s.maskedWrite a m d).fbByte b = if b = a then mergeByte (s.fbByte a) m d else s.fbByte b := by
  unfold State.maskedWrite
  split
  · rename_i hm
    by_cases hb : b = a <;> simp [mergeByte, hm, hb]
  · exact State.fbByte_memWrite ..

/-- Settles O33, by what a merge leaves in one bit. -/
theorem maskedWriteReplacesUnderMask : Obligations.MaskedWriteReplacesUnderMask := by
  unfold Obligations.MaskedWriteReplacesUnderMask
  intro s a m d
  refine ⟨fun i => ?_, fun b hb => ?_, rfl, ?_⟩
  · rw [State.fbByte_maskedWrite, if_pos rfl, mergeByte_getLsbD]
  · rw [State.fbByte_maskedWrite, if_neg hb]
  · simp [State.maskedWrite, mergeByte]

/-- Settles O34: a byte strictly inside the run has all eight of its bit addresses in it. -/
theorem byteMaskSelectsRun : Obligations.ByteMaskSelectsRun := by
  unfold Obligations.ByteMaskSelectsRun
  refine ⟨fun B a0 a1 i hi => byteMask_getLsbD hi, fun B a0 a1 h0 h1 => ?_, by decide, by decide, by decide⟩
  refine BitVec.eq_of_getLsbD_eq fun i hi => ?_
  rw [byteMask_getLsbD hi, show (0xFF : Byte) = 0xFF#8 from rfl, byte_ff_getLsbD, decide_eq_decide]
  omega

end Sys2Proof.Machine
end

section
/-! The frame buffer's bits under the pixel operations, the same for all five formats (`20_memory.md` R50, R56), and the
laws of POKE and PEEK that follow (`41_pixel_access.md` R132). -/

namespace Sys2Proof

/-- Where bit i of a pixel's value stands among the pixel's bit addresses: high bit first, but RGB565 keeps its low byte
first (R50). Its own inverse. -/
def Format.fieldBit (f : Format) (i : Nat) : Nat :=
  match f with
  | .rgb565 => 8 * (i / 8) + (7 - i % 8)
  | f => f.bpp - 1 - i

theorem Format.fieldBit_lt (f : Format) {i : Nat} (hi : i < f.bpp) : f.fieldBit i < f.bpp := by
  cases f <;> simp only [Format.fieldBit, Format.bpp] at hi ⊢ <;> omega

theorem Format.fieldBit_fieldBit (f : Format) {i : Nat} (hi : i < f.bpp) : f.fieldBit (f.fieldBit i) = i := by
  cases f <;> simp only [Format.fieldBit, Format.bpp] at hi ⊢ <;> omega

/-- A bit address of pixel L is the place of one of its value's bits. -/
theorem Format.exists_fieldBit {f : Format} {L A : Nat} (hA : L * f.bpp ≤ A ∧ A < (L + 1) * f.bpp) :
    ∃ i, i < f.bpp ∧ A = L * f.bpp + f.fieldBit i := by
  rw [Nat.add_one_mul] at hA
  have hk : A - L * f.bpp < f.bpp := by omega
  refine ⟨f.fieldBit (A - L * f.bpp), f.fieldBit_lt hk, ?_⟩
  rw [f.fieldBit_fieldBit hk]
  omega

/-- The mask of a sub-byte PixWrite selects the bits of pixel L in its byte (R56). -/
theorem Format.fieldMask_getLsbD {f : Format} (hf : f.bpp < 8) (L A : Nat) :
    (A / 8 = f.pixByte L ∧ (f.pixMask.setWidth 8 <<< f.pixShift L).getLsbD (7 - A % 8) = true) ↔
      L * f.bpp ≤ A ∧ A < (L + 1) * f.bpp := by
  simp only [BitVec.getLsbD_shiftLeft, BitVec.getLsbD_setWidth, Format.pixMask_getLsbD, Bool.and_eq_true,
    Bool.not_eq_true', decide_eq_true_eq, decide_eq_false_iff_not]
  cases f <;> simp only [Format.pixByte, Format.pixShift, Format.pixOffset, Format.bpp] at hf ⊢ <;> omega

theorem Format.eq_of_byte {f : Format} (hb : ¬ f.bpp < 8) : f = .indexed8 ∨ f = .rgb565 := by
  cases f <;> simp [Format.bpp] at hb ⊢

end Sys2Proof

namespace Sys2Proof.Machine

/-! ## PixRead and PixWrite in each kind of format (R56), and what PixWrite leaves -/

theorem State.pixRead_indexed8 {s : State} (h : s.fmt = .indexed8) (L : Nat) :
    s.pixRead L = (s.fbByte L).setWidth 16 := by
  rw [State.pixRead, h]

theorem State.pixRead_rgb565 {s : State} (h : s.fmt = .rgb565) (L : Nat) :
    s.pixRead L = s.fbByte (2 * L + 1) ++ s.fbByte (2 * L) := by
  rw [State.pixRead, h]

theorem State.pixWrite_indexed8 {s : State} (h : s.fmt = .indexed8) (L : Nat) (v : Half) :
    s.pixWrite L v = s.memWrite L (v.setWidth 8) := by
  rw [State.pixWrite, h]

theorem State.pixWrite_rgb565 {s : State} (h : s.fmt = .rgb565) (L : Nat) (v : Half) :
    s.pixWrite L v = (s.memWrite (2 * L) (v.setWidth 8)).memWrite (2 * L + 1) ((v >>> 8).setWidth 8) := by
  rw [State.pixWrite, h]

theorem State.pixWrite_of_subByte (s : State) (hb : s.fmt.bpp < 8) (L : Nat) (v : Half) :
    s.pixWrite L v = s.maskedWrite (s.fmt.pixByte L) (s.fmt.pixMask.setWidth 8 <<< s.fmt.pixShift L)
      (v.setWidth 8 <<< s.fmt.pixShift L) := by
  unfold State.pixWrite
  cases h : s.fmt <;> simp [h, Format.bpp] at hb ⊢

@[simp] theorem State.pixWrite_fmt (s : State) (L : Nat) (v : Half) : (s.pixWrite L v).fmt = s.fmt := by
  rw [State.pixWrite_onlyFb]
@[simp] theorem State.pixWrite_epoch (s : State) (L : Nat) (v : Half) : (s.pixWrite L v).epoch = s.epoch := by
  rw [State.pixWrite_onlyFb]

/-- What PixWrite leaves in the buffer does not depend on how the last command completed. -/
theorem State.fbByte_pixWrite_done (s : State) (c : Code) (L : Nat) (v : Half) (a : Nat) :
    ((s.done c).pixWrite L v).fbByte a = (s.pixWrite L v).fbByte a :=
  State.fbByte_congr (State.pixWrite_fb_congr (s := s) (s' := s.done c) rfl rfl rfl L v) (by simp) a
theorem State.fbByte_pixWrite_doneWith (s : State) (c : Code) (r : Word) (L : Nat) (v : Half) (a : Nat) :
    ((s.doneWith c r).pixWrite L v).fbByte a = (s.pixWrite L v).fbByte a :=
  State.fbByte_congr (State.pixWrite_fb_congr (s := s) (s' := s.doneWith c r) rfl rfl rfl L v) (by simp) a

/-! ## Pixel reads and writes on bits -/

/-- Bit i of a pixel's value is the buffer bit at its place in the pixel (R50). -/
theorem State.pixRead_fieldBit (s : State) (L : Nat) {i : Nat} (hi : i < s.fmt.bpp) :
    (s.pixRead L).getLsbD i = s.fbBit (L * s.fmt.bpp + s.fmt.fieldBit i) := by
  by_cases hb : s.fmt.bpp < 8
  · rw [State.pixRead_getLsbD _ hb, decide_eq_true hi, Bool.true_and]
    cases h : s.fmt <;> simp_all [Format.fieldBit, Format.bpp]
  · rcases Format.eq_of_byte hb with h | h
    · rw [State.pixRead_indexed8 h]
      simp only [h, Format.bpp, Format.fieldBit] at hi ⊢
      rw [BitVec.getLsbD_setWidth, s.fbByte_getLsbD L hi, decide_eq_true (by omega), Bool.true_and]
      congr 1
      omega
    · rw [State.pixRead_rgb565 h, half_of_bytes_getLsbD]
      simp only [h, Format.bpp, Format.fieldBit] at hi ⊢
      split <;> rw [State.fbByte_getLsbD _ _ (by omega)] <;> congr 1 <;> omega

/-- A read pixel is zero-extended (R56). -/
theorem State.pixRead_getLsbD_of_ge (s : State) (L : Nat) {i : Nat} (hi : s.fmt.bpp ≤ i) :
    (s.pixRead L).getLsbD i = false := by
  by_cases hb : s.fmt.bpp < 8
  · rw [State.pixRead_getLsbD _ hb, decide_eq_false (by omega), Bool.false_and]
  · rcases Format.eq_of_byte hb with h | h <;> simp only [h, Format.bpp] at hi
    · rw [State.pixRead_indexed8 h, BitVec.getLsbD_setWidth, BitVec.getLsbD_of_ge _ _ hi, Bool.and_false]
    · exact BitVec.getLsbD_of_ge _ _ hi

theorem State.fbBit_memWrite (s : State) (a : Nat) (v : Byte) (A : Nat) :
    (s.memWrite a v).fbBit A = if A / 8 = a then v.getLsbD (7 - A % 8) else s.fbBit A := by
  simp only [State.fbBit, State.fbByte_memWrite]
  split <;> rfl

theorem State.fbBit_maskedWrite (s : State) (a : Nat) (m d : Byte) (A : Nat) :
    (s.maskedWrite a m d).fbBit A =
      if A / 8 = a ∧ m.getLsbD (7 - A % 8) then d.getLsbD (7 - A % 8) else s.fbBit A := by
  simp only [State.fbBit, State.fbByte_maskedWrite]
  by_cases h : A / 8 = a
  · simp [h, mergeByte_getLsbD]
  · simp [h]

/-- PixWrite leaves every bit that is not the pixel's. -/
theorem State.fbBit_pixWrite_outside (s : State) {L : Nat} (v : Half) {A : Nat}
    (hA : ¬ (L * s.fmt.bpp ≤ A ∧ A < (L + 1) * s.fmt.bpp)) : (s.pixWrite L v).fbBit A = s.fbBit A := by
  by_cases hb : s.fmt.bpp < 8
  · rw [State.pixWrite_of_subByte s hb, State.fbBit_maskedWrite, if_neg (mt (Format.fieldMask_getLsbD hb L A).mp hA)]
  · rcases Format.eq_of_byte hb with h | h <;> simp only [h, Format.bpp] at hA
    · rw [State.pixWrite_indexed8 h, State.fbBit_memWrite, if_neg (by omega)]
    · rw [State.pixWrite_rgb565 h, State.fbBit_memWrite, if_neg (by omega), State.fbBit_memWrite, if_neg (by omega)]

/-- PixWrite puts bit i of the value at its place in the pixel (R50, R56). -/
theorem State.fbBit_pixWrite_inside (s : State) (L : Nat) (v : Half) {i : Nat} (hi : i < s.fmt.bpp) :
    (s.pixWrite L v).fbBit (L * s.fmt.bpp + s.fmt.fieldBit i) = v.getLsbD i := by
  have hlt := s.fmt.fieldBit_lt hi
  by_cases hb : s.fmt.bpp < 8
  · have hin : L * s.fmt.bpp ≤ L * s.fmt.bpp + s.fmt.fieldBit i ∧
        L * s.fmt.bpp + s.fmt.fieldBit i < (L + 1) * s.fmt.bpp := by
      rw [Nat.add_one_mul]
      omega
    rw [State.pixWrite_of_subByte s hb, State.fbBit_maskedWrite, if_pos ((Format.fieldMask_getLsbD hb L _).mpr hin)]
    have hpos : 7 - (L * s.fmt.bpp + s.fmt.fieldBit i) % 8 = s.fmt.pixShift L + i := by
      cases h : s.fmt <;>
        simp only [h, Format.pixShift, Format.pixOffset, Format.fieldBit, Format.bpp] at hb hi ⊢ <;> omega
    rw [hpos]
    have h8 : s.fmt.pixShift L + i < 8 := by omega
    simp [h8]
  · rcases Format.eq_of_byte hb with h | h <;> simp only [h, Format.bpp, Format.fieldBit] at hi ⊢
    · rw [State.pixWrite_indexed8 h, State.fbBit_memWrite, if_pos (by omega),
        show 7 - (L * 8 + (8 - 1 - i)) % 8 = i by omega, BitVec.getLsbD_setWidth, decide_eq_true hi, Bool.true_and]
    · have hpos : 7 - (L * 16 + (8 * (i / 8) + (7 - i % 8))) % 8 = i % 8 := by omega
      rw [State.pixWrite_rgb565 h, State.fbBit_memWrite, State.fbBit_memWrite, hpos]
      by_cases h8 : i < 8
      · rw [if_neg (by omega), if_pos (by omega), Nat.mod_eq_of_lt h8, BitVec.getLsbD_setWidth, decide_eq_true h8,
          Bool.true_and]
      · rw [if_pos (by omega), BitVec.getLsbD_setWidth, BitVec.getLsbD_ushiftRight, decide_eq_true (by omega),
          Bool.true_and, show 8 + i % 8 = i by omega]

/-! ## The laws of PixRead and PixWrite -/

theorem State.trunc_pixRead (s : State) (L : Nat) : s.fmt.trunc (s.pixRead L) = s.pixRead L := by
  refine BitVec.eq_of_getLsbD_eq fun i _ => ?_
  rw [Format.trunc_getLsbD]
  by_cases hi : i < s.fmt.bpp
  · rw [decide_eq_true hi, Bool.and_true]
  · rw [State.pixRead_getLsbD_of_ge _ _ (Nat.le_of_not_lt hi), Bool.false_and]

theorem State.pixRead_pixWrite_same (s : State) (L : Nat) (v : Half) : (s.pixWrite L v).pixRead L = s.fmt.trunc v := by
  have hf := s.pixWrite_fmt L v
  refine BitVec.eq_of_getLsbD_eq fun i _ => ?_
  rw [Format.trunc_getLsbD]
  by_cases hi : i < s.fmt.bpp
  · rw [State.pixRead_fieldBit _ _ (hf ▸ hi), hf, State.fbBit_pixWrite_inside _ _ _ hi, decide_eq_true hi,
      Bool.and_true]
  · rw [State.pixRead_getLsbD_of_ge _ _ (hf ▸ Nat.le_of_not_lt hi), decide_eq_false hi, Bool.and_false]

theorem State.pixRead_pixWrite_of_ne (s : State) {L M : Nat} (h : M ≠ L) (v : Half) :
    (s.pixWrite L v).pixRead M = s.pixRead M :=
  State.pixRead_frame (lo := L) (n := 1) (s.pixWrite_fmt L v) (fun _ hA => s.fbBit_pixWrite_outside v hA) (by omega)

/-- Writing back what was read changes no byte. -/
theorem State.fbByte_pixWrite_pixRead (s : State) (L a : Nat) :
    (s.pixWrite L (s.pixRead L)).fbByte a = s.fbByte a := by
  refine State.fbByte_eq_of_bits fun k _ => ?_
  generalize 8 * a + k = A
  by_cases hA : L * s.fmt.bpp ≤ A ∧ A < (L + 1) * s.fmt.bpp
  · obtain ⟨i, hi, rfl⟩ := Format.exists_fieldBit hA
    rw [State.fbBit_pixWrite_inside _ _ _ hi, State.pixRead_fieldBit _ _ hi]
  · exact s.fbBit_pixWrite_outside _ hA

/-- No bit belongs to two pixels, so writes to two pixels commute on the bits of either. -/
theorem State.fbBit_pixWrite_comm_inside (s : State) {L M : Nat} (h : M ≠ L) (v w : Half) {A : Nat}
    (hA : L * s.fmt.bpp ≤ A ∧ A < (L + 1) * s.fmt.bpp) :
    ((s.pixWrite L v).pixWrite M w).fbBit A = ((s.pixWrite M w).pixWrite L v).fbBit A := by
  have hM : ¬ (M * s.fmt.bpp ≤ A ∧ A < (M + 1) * s.fmt.bpp) := fun ⟨hlo, hhi⟩ =>
    h ((Nat.div_eq_of_lt_le hlo hhi).symm.trans (Nat.div_eq_of_lt_le hA.1 hA.2))
  rw [State.fbBit_pixWrite_outside _ _ (by rwa [State.pixWrite_fmt])]
  obtain ⟨i, hi, rfl⟩ := Format.exists_fieldBit hA
  have hright := (s.pixWrite M w).fbBit_pixWrite_inside L v (i := i)
  rw [State.pixWrite_fmt] at hright
  rw [State.fbBit_pixWrite_inside _ _ _ hi, hright hi]

theorem State.fbByte_pixWrite_comm (s : State) {L M : Nat} (h : M ≠ L) (v w : Half) (a : Nat) :
    ((s.pixWrite L v).pixWrite M w).fbByte a = ((s.pixWrite M w).pixWrite L v).fbByte a := by
  refine State.fbByte_eq_of_bits fun k _ => ?_
  generalize 8 * a + k = A
  by_cases hL : L * s.fmt.bpp ≤ A ∧ A < (L + 1) * s.fmt.bpp
  · exact s.fbBit_pixWrite_comm_inside h v w hL
  by_cases hM : M * s.fmt.bpp ≤ A ∧ A < (M + 1) * s.fmt.bpp
  · exact (s.fbBit_pixWrite_comm_inside h.symm w v hM).symm
  · rw [State.fbBit_pixWrite_outside _ _ (by rwa [State.pixWrite_fmt]), s.fbBit_pixWrite_outside v hL,
      State.fbBit_pixWrite_outside _ _ (by rwa [State.pixWrite_fmt]), s.fbBit_pixWrite_outside w hM]

/-! ## POKE and PEEK inside the buffer -/

theorem State.linIndex_pixWrite_done (s : State) (L : Nat) (v : Half) (c : Code) (x y : Half) :
    ((s.pixWrite L v).done c).linIndex x y = s.linIndex x y := by
  rw [State.pixWrite_onlyFb]
  rfl

/-- The address check of POKE and PEEK looks at nothing that a POKE changes. -/
theorem State.inBuffer_peek_pixWrite_done (s : State) (L : Nat) (v : Half) (c : Code) (x y : Half) :
    ((s.pixWrite L v).done c).inBuffer (.peek x y) = s.inBuffer (.peek x y) := by
  rw [State.pixWrite_onlyFb]
  rfl

theorem exec_poke_of_inBuffer {s : State} {x y : Half} (h : s.inBuffer (.peek x y) = true) (v : Half) :
    exec (.poke x y v) s = .next ((s.pixWrite (s.linIndex x y) (s.fmt.trunc v)).done .ok) :=
  State.whenInside_next.mpr ⟨of_decide_eq_true h, rfl⟩

theorem exec_peek_of_inBuffer {s : State} {x y : Half} (h : s.inBuffer (.peek x y) = true) :
    exec (.peek x y) s = .next (s.doneWith .ok ((s.pixRead (s.linIndex x y)).setWidth 32)) :=
  State.whenInside_next.mpr ⟨of_decide_eq_true h, rfl⟩

/-- A PEEK after a PixWrite addresses the pixel it would have addressed before it. -/
theorem exec_peek_after_poke {s : State} {x' y' : Half} (h : s.inBuffer (.peek x' y') = true) (L : Nat) (v : Half) :
    ∃ u, exec (.peek x' y') ((s.pixWrite L v).done .ok) = .next u ∧
      u.result = ((s.pixWrite L v).pixRead (s.linIndex x' y')).setWidth 32 := by
  rw [exec_peek_of_inBuffer (by rwa [State.inBuffer_peek_pixWrite_done]), State.linIndex_pixWrite_done]
  exact ⟨_, rfl, rfl⟩

/-- A POKE after a PEEK leaves the bytes it would have left without it. -/
theorem exec_poke_after_peek {s : State} {x y : Half} (h : s.inBuffer (.peek x y) = true) (r : Word) (v : Half) :
    ∃ u, exec (.poke x y v) (s.doneWith .ok r) = .next u ∧
      ∀ a, u.fbByte a = (s.pixWrite (s.linIndex x y) (s.fmt.trunc v)).fbByte a :=
  ⟨_, exec_poke_of_inBuffer (s := s.doneWith .ok r) h v, s.fbByte_pixWrite_doneWith .ok r _ _⟩

theorem exec_poke_after_poke {s : State} {x' y' : Half} (h : s.inBuffer (.peek x' y') = true) (L : Nat) (v v' : Half) :
    ∃ u, exec (.poke x' y' v') ((s.pixWrite L v).done .ok) = .next u ∧
      ∀ a, u.fbByte a = ((s.pixWrite L v).pixWrite (s.linIndex x' y') (s.fmt.trunc v')).fbByte a := by
  rw [exec_poke_of_inBuffer (by rwa [State.inBuffer_peek_pixWrite_done]), State.linIndex_pixWrite_done,
    State.done_fmt, State.pixWrite_fmt]
  exact ⟨_, rfl, (s.pixWrite L v).fbByte_pixWrite_done .ok _ _⟩

/-- Settles O37: the four laws are the laws of PixRead and PixWrite, at linear indices that no POKE changes. -/
theorem pokePeekLaws : Obligations.PokePeekLaws := by
  unfold Obligations.PokePeekLaws
  intro s x y v h
  refine ⟨?_, ?_, fun x' y' v' h' hne => ⟨?_, ?_⟩⟩
  · obtain ⟨u, hu, hr⟩ := exec_peek_after_poke h (s.linIndex x y) (s.fmt.trunc v)
    refine ⟨_, u, exec_poke_of_inBuffer h v, hu, ?_⟩
    rw [hr, State.pixRead_pixWrite_same, Format.trunc_trunc]
  · obtain ⟨u, hu, hbytes⟩ := exec_poke_after_peek h ((s.pixRead (s.linIndex x y)).setWidth 32)
      (((s.pixRead (s.linIndex x y)).setWidth 32).setWidth 16)
    refine ⟨_, u, exec_peek_of_inBuffer h, hu, fun a => ?_⟩
    rw [hbytes, BitVec.setWidth_setWidth_of_le _ (by decide), BitVec.setWidth_eq, State.trunc_pixRead,
      State.fbByte_pixWrite_pixRead]
  · obtain ⟨u, hu, hr⟩ := exec_peek_after_poke h' (s.linIndex x y) (s.fmt.trunc v)
    refine ⟨_, u, _, exec_poke_of_inBuffer h v, hu, exec_peek_of_inBuffer h', ?_⟩
    rw [hr, State.pixRead_pixWrite_of_ne _ hne, State.doneWith_result]
  · obtain ⟨u, hu, hbytes⟩ := exec_poke_after_poke h' (s.linIndex x y) (s.fmt.trunc v) v'
    obtain ⟨u', hu', hbytes'⟩ := exec_poke_after_poke h (s.linIndex x' y') (s.fmt.trunc v') v
    refine ⟨_, u, _, u', exec_poke_of_inBuffer h v, hu, exec_poke_of_inBuffer h' v', hu', fun a => ?_⟩
    rw [hbytes, hbytes', State.fbByte_pixWrite_comm _ hne]

end Sys2Proof.Machine
end

section
/-! The step and its invariants: what one step can do, what every step keeps of the two memories (`10_state.md` R29,
R30, `20_memory.md` R62), which command may write which register (R22 to R28), and that only a reset clears INITED
(R24). -/

namespace Sys2Proof.Machine

/-! ## What one step can do -/

theorem step_of_inputs_cons {s : State} {inp : HostInput} {rest : List HostInput} (hl : s.cfg.legal = true)
    (hi : s.inputs = inp :: rest) : step s = State.accept { s with inputs := rest } inp := by
  rw [step, if_pos hl, hi]

/-- A step that answers a next state idles or accepts the head of the host's plan (R21, R221). -/
theorem step_cases {s t : State} (h : step s = .next t) :
    s.inputs = [] ∧ t = s ∨
    ∃ inp rest, s.inputs = inp :: rest ∧ State.accept { s with inputs := rest } inp = .next t := by
  unfold step at h
  split at h
  · split at h
    · rename_i hi
      cases h
      exact .inl ⟨hi, rfl⟩
    · rename_i inp rest hi
      exact .inr ⟨inp, rest, hi, h⟩
  · cases h

/-- A descriptor that completes is a command's execution or a reserved opcode (R88). -/
theorem State.runDescriptor_cases {s t : State} {d : Descriptor} (h : s.runDescriptor d = .next t) :
    (∃ i, decode d = .ok i ∧ exec i s = .next t) ∨ t = s.reservedOpcode := by
  unfold State.runDescriptor at h
  split at h
  · rename_i i hd
    exact .inl ⟨i, hd, h⟩
  · cases h
    exact .inr rfl

/-- Settles O12: the step accepts the head of the plan, and accepting a descriptor runs what it decodes to. -/
theorem stepRunsDecodedCommand : Obligations.StepRunsDecodedCommand := by
  unfold Obligations.StepRunsDecodedCommand
  intro s d rest i hl hi hd
  rw [step_of_inputs_cons hl hi, State.accept, State.runDescriptor, hd]

/-- Settles O15, by the law of a tile read after a byte was placed. -/
theorem tileBytePlaced : Obligations.TileBytePlaced := by
  unfold Obligations.TileBytePlaced
  intro s addr v rest hl hi
  exact ⟨State.placeTile { s with inputs := rest } addr v, step_of_inputs_cons hl hi, rfl,
    fun a => State.tileRead_placeTile { s with inputs := rest } addr v a⟩

/-! ## What a command may write -/

/-- Register by register, which commands may change it and how (R24 to R29): a completed command leaves it or is one
of those the spec names for it. -/
theorem exec_keeps_or_named {i : Instr} {s t : State} (h : exec i s = .next t) :
    (t.inited = s.inited ∨ i.opcode = 0x01 ∧ t.inited = true) ∧
    (t.fmt = s.fmt ∨ i.opcode ∈ [0x01, 0x02]) ∧
    ((t.vsCol, t.vsRow, t.vsW, t.vsH) = (s.vsCol, s.vsRow, s.vsW, s.vsH) ∨ i.opcode ∈ [0x01, 0x03]) ∧
    (t.result = s.result ∨ i.opcode ∈ [0x01, 0x04, 0x11]) ∧
    (t.fb = s.fb ∨ i.opcode ∈ [0x10, 0x20, 0x21, 0x22, 0x30, 0x31, 0x40, 0x41]) := by
  rcases exec_cases h with ⟨_, -, rfl⟩ | ⟨_, ho, h0, rfl⟩ | ⟨_, ho, rfl⟩ | ⟨_, ho, rfl⟩ | ⟨_, _, _, _, ho, rfl⟩ |
    ⟨_, _, _, _, _, ho, -, rfl⟩ | ⟨_, _, _, _, _, ho, -, rfl⟩ | ⟨ho, -, rfl⟩
  · exact ⟨.inl rfl, .inl rfl, .inl rfl, .inl rfl, .inl rfl⟩
  · exact ⟨.inl rfl, .inl rfl, .inl rfl, .inl rfl, (List.mem_cons.mp ho).imp h0 id⟩
  · exact ⟨.inl rfl, .inl rfl, .inl rfl, .inr (List.mem_cons_of_mem _ ho), .inl rfl⟩
  · exact ⟨.inl rfl, .inr (by simp [ho]), .inl rfl, .inl rfl, .inl rfl⟩
  · exact ⟨.inl rfl, .inl rfl, .inr (by simp [ho]), .inl rfl, .inl rfl⟩
  · exact ⟨.inr ⟨ho, rfl⟩, .inr (by simp [ho]), .inr (by simp [ho]), .inr (by simp [ho]), .inl rfl⟩
  · exact ⟨.inr ⟨ho, rfl⟩, .inr (by simp [ho]), .inr (by simp [ho]), .inr (by simp [ho]), .inl rfl⟩
  · exact ⟨.inl rfl, .inl rfl, .inl rfl, .inr (by simp [ho]), .inl rfl⟩

/-- Settles O22, register by register from the shapes of a completed command. -/
theorem onlyNamedCommandsWrite : Obligations.OnlyNamedCommandsWrite := by
  unfold Obligations.OnlyNamedCommandsWrite
  intro i s t h
  obtain ⟨hinited, hfmt, hvs, hresult, hfb⟩ := exec_keeps_or_named h
  obtain ⟨houtside, hbru⟩ := exec_keeps_outside h
  refine ⟨hinited.resolve_left, hfmt.resolve_left, hvs.resolve_left, hresult.resolve_left, hfb.resolve_left,
    fun hne => ?_, houtside⟩
  rcases hbru with ⟨-, heq⟩ | ⟨ho, hi, -, heq⟩
  · exact absurd heq hne
  · exact ⟨ho, hi, heq⟩

/-! ## INITED (R24) -/

theorem State.runDescriptor_keeps_inited {s t : State} {d : Descriptor} (h : s.runDescriptor d = .next t)
    (hs : s.inited = true) : t.inited = true := by
  rcases State.runDescriptor_cases h with ⟨i, -, he⟩ | rfl
  · obtain ⟨heq | ⟨-, ht⟩, -⟩ := exec_keeps_or_named he
    · rw [heq, hs]
    · exact ht
  · exact hs

/-- Settles O24, by what the machine does with each of the four inputs. -/
theorem initedClearedOnlyByReset : Obligations.InitedClearedOnlyByReset := by
  unfold Obligations.InitedClearedOnlyByReset
  intro s t h hs hreset hduring
  rcases step_cases h with ⟨-, rfl⟩ | ⟨inp, rest, hi, ha⟩
  · exact hs
  · cases inp with
    | command d => exact State.runDescriptor_keeps_inited ha hs
    | tile addr v => cases ha; exact hs
    | reset => exact absurd (by rw [hi]; rfl) hreset
    | resetDuring d reached => exact absurd (by rw [hi]; rfl) (hduring d reached)

/-! ## The invariant of the memories -/

theorem State.Inv.atReset (cfg : Config) : (State.atReset cfg).Inv :=
  ⟨.nil, nofun, .nil, nofun⟩

/-- Settles O10: right after reset neither memory lists a byte. -/
theorem invariantAtReset : Obligations.InvariantAtReset := by
  unfold Obligations.InvariantAtReset
  exact fun cfg => ⟨.atReset cfg, .atReset _⟩

theorem State.Inv.afterReset {s : State} (h : s.Inv) : s.afterReset.Inv :=
  ⟨.nil, nofun, h.tile_wf, h.tile_below⟩

theorem State.Inv.placeTile {s : State} (h : s.Inv) (addr : Word) (v : Byte) : (s.placeTile addr v).Inv :=
  ⟨h.fb_wf, h.fb_below, Memory.setRange_wf h.tile_wf .., Memory.setRange_below h.tile_below _ addr.isLt⟩

theorem State.Inv.done {s : State} (h : s.Inv) (c : Code) : (s.done c).Inv := h.congr rfl rfl rfl

theorem State.Inv.blit {s t : State} (h : s.Inv) {x y : Half} {side tfmt : Byte} {ptr : Word} {g : Stage}
    (hb : s.blit x y side tfmt ptr g = .next t) : t.Inv := by
  rcases State.blit_cases hb with ⟨-, rfl⟩ | ⟨-, -, rfl⟩ | ⟨-, -, hlast, rfl⟩
  · exact h.done _
  · exact h.done _
  · exact (h.blitRows _ g _ _ hlast le_rfl).done _

theorem State.Inv.scroll {s t : State} (h : s.Inv) {count total : Nat} {f : Nat → Byte}
    (hs : s.scroll count total f = .next t) : t.Inv := by
  rcases s.scroll_cases count total f with ⟨-, e⟩ | ⟨-, -, e⟩ | ⟨-, -, e⟩ <;> rw [e] at hs <;> cases hs
  · exact h.done _
  · exact (h.writeExtent _).done _
  · exact (h.writeExtent _).done _

/-- No command leaves a byte at or above FB_LEN: a drawing command stays below it, the others keep both memories. -/
theorem State.Inv.exec {i : Instr} {s t : State} (h : s.Inv) (he : exec i s = .next t) : t.Inv := by
  obtain ⟨⟨hcfg, htile, -, -⟩, -⟩ := exec_keeps_outside he
  obtain ⟨-, -, -, -, hfb | hdraws⟩ := exec_keeps_or_named he
  · exact h.congr hcfg hfb htile
  · cases i with
    | poke x y v =>
      obtain ⟨hlast, rfl⟩ := State.whenInside_next.mp he
      exact (h.pixWrite _ hlast).done _
    | clear => cases he; exact (h.writeExtent _).done _
    | fill v => cases he; exact (h.writeExtent _).done _
    | span x y len v =>
      rw [Machine.exec, execSpan] at he
      split at he
      · cases he
        exact h.done _
      · rename_i hlen
        obtain ⟨hlast, rfl⟩ := State.whenInside_next.mp he
        exact (h.spanWrite _ (Nat.pos_of_ne_zero hlen) hlast).done _
    | blit => exact h.blit he
    | blitr => exact h.blit he
    | scrlr => exact h.scroll he
    | scrlc => exact h.scroll he
    | nop | init | setfmt | setvs | getreg | peek => simp [Instr.opcode] at hdraws

theorem State.Inv.runDescriptor {s t : State} {d : Descriptor} (h : s.Inv) (hr : s.runDescriptor d = .next t) :
    t.Inv := by
  rcases State.runDescriptor_cases hr with ⟨i, -, he⟩ | rfl
  · exact h.exec he
  · exact h.done _

theorem State.Inv.accept {s t : State} {inp : HostInput} (h : s.Inv) (ha : s.accept inp = .next t) : t.Inv := by
  cases inp with
  | command d => exact h.runDescriptor ha
  | tile addr v => cases ha; exact h.placeTile addr v
  | reset => cases ha; exact h.afterReset
  | resetDuring d reached =>
    rcases State.abandon_next ha with rfl | ⟨-, -, -, rfl⟩
    · exact h.afterReset
    · exact (h.congr (t := s.requestBringUp) rfl rfl rfl).afterReset

/-- Settles O11: idling keeps the invariant, and so does what the machine does with each input. -/
theorem stepKeepsInvariant : Obligations.StepKeepsInvariant := by
  unfold Obligations.StepKeepsInvariant
  intro s t h hstep
  rcases step_cases hstep with ⟨-, rfl⟩ | ⟨inp, rest, -, ha⟩
  · exact h
  · exact (h.congr (t := { s with inputs := rest }) rfl rfl rfl).accept ha

end Sys2Proof.Machine
end

section
/-! The register file as GETREG reads it, bit by bit (`10_state.md` R22). -/

namespace Sys2Proof.Machine

theorem Code.toByte_le (c : Code) : c.toByte.toNat ≤ 4 := by cases c <;> decide

/-! ## The fields of the words -/

theorem halves_low (hi lo : Half) : (halves hi lo).extractLsb' 0 16 = lo := BitVec.extractLsb'_append_eq_right

theorem halves_high (hi lo : Half) : (halves hi lo).extractLsb' 16 16 = hi := BitVec.extractLsb'_append_eq_left

theorem extractLsb'_setWidth_low {n w : Nat} (b : BitVec n) (h : n ≤ w) : (b.setWidth w).extractLsb' 0 n = b := by
  rw [BitVec.extractLsb'_setWidth_of_le (by omega), BitVec.extractLsb'_eq_self]

theorem extractLsb'_setWidth_above {n : Nat} (b : BitVec n) (w len : Nat) : (b.setWidth w).extractLsb' n len = 0 := by
  refine BitVec.eq_of_getLsbD_eq fun i hi => ?_
  rw [BitVec.getLsbD_extractLsb', BitVec.getLsbD_setWidth, BitVec.getLsbD_of_ge b _ (Nat.le_add_right ..)]
  simp

theorem State.statusWord_inited (s : State) : s.statusWord.extractLsb' 0 1 = BitVec.ofBool s.inited :=
  BitVec.extractLsb'_append_eq_right

theorem State.statusWord_low_zero (s : State) : s.statusWord.extractLsb' 1 7 = 0 := by
  rw [State.statusWord, BitVec.extractLsb'_append_eq_of_le (by decide)]
  exact BitVec.extractLsb'_append_eq_right

theorem State.statusWord_last (s : State) : s.statusWord.extractLsb' 8 8 = s.last.toByte := by
  rw [State.statusWord, BitVec.extractLsb'_append_eq_of_le (by decide), BitVec.extractLsb'_append_eq_of_le (by decide)]
  exact BitVec.extractLsb'_append_eq_right

theorem State.statusWord_high_zero (s : State) : s.statusWord.extractLsb' 16 16 = 0 := by
  rw [State.statusWord, BitVec.extractLsb'_append_eq_of_le (by decide), BitVec.extractLsb'_append_eq_of_le (by decide)]
  exact BitVec.extractLsb'_append_eq_left

/-- The indices 8 to 255 are reserved (R85). -/
theorem State.readReg_reserved (s : State) {idx : Byte} (h : 7 < idx.toNat) : s.readReg idx = none := by
  obtain ⟨k, hk⟩ : ∃ k, idx.toNat = k + 8 := ⟨idx.toNat - 8, by omega⟩
  rw [State.readReg, hk]
  rfl

/-- Settles O21: each index reads its word, and each word reads its fields where they were put. -/
theorem registerMap : Obligations.RegisterMap := by
  unfold Obligations.RegisterMap
  exact ⟨Code.toByte_le, rfl, rfl, rfl, rfl, rfl, fun s => ⟨_, _, _, _, _, _, _,
    rfl, s.statusWord_inited, s.statusWord_low_zero, s.statusWord_last, s.statusWord_high_zero,
    rfl, extractLsb'_setWidth_low _ (by decide), extractLsb'_setWidth_above _ _ _,
    rfl, halves_low _ _, halves_high _ _,
    rfl, halves_low _ _, halves_high _ _,
    rfl, halves_low _ _, halves_high _ _,
    rfl,
    rfl, halves_low _ _, halves_high _ _,
    rfl, extractLsb'_setWidth_low _ (by decide), extractLsb'_setWidth_above _ _ _,
    fun idx h => s.readReg_reserved h⟩⟩

end Sys2Proof.Machine
end

section
/-! Commands that stay on the screen complete (`10_state.md` R26, `70_reset_and_hazards.md` R245). -/

namespace Sys2Proof

/-- A run of pixels on one line of the screen ends inside the buffer, in every format. -/
theorem Format.lastByte_lt_fbLen (f : Format) {c : Config} {px py n : Nat} (hn : 0 < n) (hx : px + n ≤ c.physW)
    (hy : py < c.physH) : f.lastByte (c.lin px py) n < c.fbLen := by
  have hpix : c.lin px py + n ≤ c.physW * c.physH :=
    calc c.lin px py + n ≤ (py + 1) * c.physW := by rw [Config.lin, Nat.add_one_mul]; omega
      _ ≤ c.physH * c.physW := Nat.mul_le_mul_right _ hy
      _ = c.physW * c.physH := Nat.mul_comm ..
  have hpos : 0 < c.lin px py + n := by omega
  unfold Format.lastByte Config.fbLen
  cases f <;> simp only [Format.bpp] <;> omega

end Sys2Proof

namespace Sys2Proof.Machine

/-! ## Inside the buffer a command completes (R62) -/

theorem State.whenInside_completes {s : State} {a : Nat} (h : a < s.cfg.fbLen) (t : State) :
    ∃ u, s.whenInside a t = .next u :=
  ⟨t, State.whenInside_next.mpr ⟨h, rfl⟩⟩

theorem State.blit_completes {s : State} {x y : Half} {side tfmt : Byte} (h : s.tileInBuffer x y side tfmt = true)
    (ptr : Word) (g : Stage) : ∃ t, s.blit x y side tfmt ptr g = .next t := by
  simp only [State.tileInBuffer, Bool.or_eq_true, decide_eq_true_eq] at h
  simp only [State.blit]
  split_ifs with hf h0
  · exact ⟨_, rfl⟩
  · rcases h with (hne | rfl) | hlast
    · exact absurd hf hne
    · exact absurd rfl h0
    · exact State.whenInside_completes hlast _
  · exact ⟨_, rfl⟩

theorem State.scroll_completes (s : State) (count total : Nat) (f : Nat → Byte) :
    ∃ t, s.scroll count total f = .next t := by
  rcases s.scroll_cases count total f with ⟨-, e⟩ | ⟨-, -, e⟩ | ⟨-, -, e⟩ <;> exact ⟨_, e⟩

theorem exec_completes_of_inBuffer {i : Instr} {s : State} (h : s.inBuffer i = true) : ∃ t, exec i s = .next t := by
  cases i <;> simp only [exec]
  case nop => exact ⟨_, rfl⟩
  case init => unfold execInit; split <;> exact ⟨_, rfl⟩
  case setfmt => unfold execSetfmt; split <;> exact ⟨_, rfl⟩
  case setvs => exact ⟨_, rfl⟩
  case getreg => unfold execGetreg; split <;> exact ⟨_, rfl⟩
  case poke => exact State.whenInside_completes (of_decide_eq_true h) _
  case peek => exact State.whenInside_completes (of_decide_eq_true h) _
  case clear => exact ⟨_, rfl⟩
  case fill => exact ⟨_, rfl⟩
  case span x y len v =>
    simp only [State.inBuffer, Bool.or_eq_true, decide_eq_true_eq] at h
    unfold execSpan
    split
    · exact ⟨_, rfl⟩
    · rename_i hlen
      rcases h with rfl | hlast
      · exact absurd rfl hlen
      · exact State.whenInside_completes hlast _
  case blit => exact State.blit_completes h _ _
  case blitr => exact State.blit_completes h _ _
  case scrlr => exact s.scroll_completes _ _ _
  case scrlc => exact s.scroll_completes _ _ _

/-! ## On the screen every address is inside the buffer -/

section
variable {s : State} (hfits : s.screenFits = true) {x y : Half} {w h : Nat}
include hfits

/-- A block inside the virtual screen lies on the physical one after translation (R54). -/
theorem State.onScreen_translates (hon : s.onScreen x y w h = true) :
    s.px x + w ≤ s.cfg.physW ∧ s.py y + h ≤ s.cfg.physH := by
  simp only [State.screenFits, State.onScreen, Bool.and_eq_true, decide_eq_true_eq] at hfits hon
  unfold State.px State.py
  omega

theorem State.lastByte_lt_of_onScreen (hw : 0 < w) (hon : s.onScreen x y w 1 = true) :
    s.fmt.lastByte (s.linIndex x y) w < s.cfg.fbLen := by
  obtain ⟨hx, hy⟩ := State.onScreen_translates hfits hon
  exact s.fmt.lastByte_lt_fbLen hw hx hy

theorem State.tileInBuffer_of_onScreen {side : Byte} (tfmt : Byte)
    (hon : s.onScreen x y side.toNat side.toNat = true) : s.tileInBuffer x y side tfmt = true := by
  obtain ⟨hx, hy⟩ := State.onScreen_translates hfits hon
  simp only [State.tileInBuffer, Bool.or_eq_true, decide_eq_true_eq]
  by_cases h0 : side = 0
  · exact .inl (.inr h0)
  · have hpos : 0 < side.toNat := Nat.pos_of_ne_zero fun he => h0 (BitVec.eq_of_toNat_eq he)
    exact .inr (s.fmt.lastByte_lt_fbLen hpos hx (by omega))

theorem State.inBuffer_of_hostInBounds {i : Instr} (hon : s.hostInBounds i = true) : s.inBuffer i = true := by
  cases i with
  | poke | peek => exact decide_eq_true (State.lastByte_lt_of_onScreen hfits Nat.one_pos hon)
  | span x y len v =>
    simp only [State.inBuffer, Bool.or_eq_true, decide_eq_true_eq]
    by_cases h0 : len = 0
    · exact .inl h0
    · have hpos : 0 < len.toNat := Nat.pos_of_ne_zero fun he => h0 (BitVec.eq_of_toNat_eq he)
      exact .inr (State.lastByte_lt_of_onScreen hfits hpos hon)
  | blit | blitr => exact State.tileInBuffer_of_onScreen hfits _ hon
  | nop | init | setfmt | setvs | getreg | clear | fill | scrlr | scrlc => rfl

end

/-- Settles O27: what lies on the screen lies inside the buffer, where every command completes. -/
theorem inBoundsHostNeverFaults : Obligations.InBoundsHostNeverFaults := by
  unfold Obligations.InBoundsHostNeverFaults
  exact fun i s hfits hon => exec_completes_of_inBuffer (State.inBuffer_of_hostInBounds hfits hon)

end Sys2Proof.Machine
end

section
/-! STATUS and the virtual screen's size influence no command but INIT, SETVS and GETREG (`10_state.md` R24, R26,
R27). -/

namespace Sys2Proof.Machine

/-- `s` with VS_SIZE, INITED and LAST changed: the registers that only INIT, SETVS and GETREG look at. -/
def State.withStatus (s : State) (w h : Half) (b : Bool) (l : Code) : State :=
  { s with vsW := w, vsH := h, inited := b, last := l }

/-- `s` with VS_SIZE and INITED changed: what such a change leaves once a command has set LAST. -/
def State.withSize (s : State) (w h : Half) (b : Bool) : State := s.withStatus w h b s.last

section
variable (s : State) (w h : Half) (b : Bool) (l : Code)

/-! ## The shared operations carry the change along -/

theorem State.done_withStatus (c : Code) : (s.withStatus w h b l).done c = (s.done c).withSize w h b := rfl

theorem State.pixWrite_withStatus (L : Nat) (v : Half) :
    (s.withStatus w h b l).pixWrite L v = (s.pixWrite L v).withStatus w h b l := by
  have hfb := State.pixWrite_fb_congr (s := s) (s' := s.withStatus w h b l) rfl rfl rfl L v
  rw [State.pixWrite_onlyFb, State.pixWrite_onlyFb s, hfb]
  rfl

theorem State.spanWrite_withStatus (L n : Nat) (v : Half) :
    (s.withStatus w h b l).spanWrite L n v = (s.spanWrite L n v).withStatus w h b l := by
  have hfb := State.spanWrite_fb_congr (s := s) (s' := s.withStatus w h b l) rfl rfl rfl L n v
  rw [State.spanWrite_onlyFb, State.spanWrite_onlyFb s, hfb]
  rfl

theorem State.blitRows_withStatus (T : Tile) (g : Stage) (px py n : Nat) :
    (s.withStatus w h b l).blitRows T g px py n = (s.blitRows T g px py n).withStatus w h b l := by
  have hfb := State.blitRows_fb_congr (s := s) (s' := s.withStatus w h b l) rfl rfl rfl rfl T g px py n
  rw [State.blitRows_onlyFb, State.blitRows_onlyFb s, hfb]
  rfl

theorem State.whenInside_withStatus (a : Nat) (t : State) :
    (s.withStatus w h b l).whenInside a (t.withSize w h b) =
      Answer.mapNext (State.withSize · w h b) (s.whenInside a t) := by
  unfold State.whenInside
  rw [apply_ite (Answer.mapNext _)]
  rfl

theorem State.blit_withStatus (x y : Half) (side tfmt : Byte) (ptr : Word) (g : Stage) :
    (s.withStatus w h b l).blit x y side tfmt ptr g =
      Answer.mapNext (State.withSize · w h b) (s.blit x y side tfmt ptr g) := by
  simp only [State.blit, State.blitRows_withStatus, State.done_withStatus]
  rw [apply_ite (Answer.mapNext _), apply_ite (Answer.mapNext _), ← State.whenInside_withStatus]
  rfl

theorem State.scroll_withStatus (count total : Nat) (f : Nat → Byte) :
    (s.withStatus w h b l).scroll count total f =
      Answer.mapNext (State.withSize · w h b) (s.scroll count total f) := by
  unfold State.scroll
  rw [apply_ite (Answer.mapNext _), apply_ite (Answer.mapNext _)]
  rfl

/-- The format check, the addresses and what is drawn look at neither, so the change is carried through. -/
theorem exec_withStatus (i : Instr) (ho : i.opcode ∉ [0x01, 0x03, 0x04]) :
    exec i (s.withStatus w h b l) = Answer.mapNext (State.withSize · w h b) (exec i s) := by
  cases i <;> simp only [exec]
  case nop => rfl
  case init | setvs | getreg => simp [Instr.opcode] at ho
  case setfmt => unfold execSetfmt; split <;> rfl
  case poke =>
    unfold execPoke
    rw [← s.whenInside_withStatus w h b l, ← State.done_withStatus _ _ _ _ l, ← State.pixWrite_withStatus]
    rfl
  case peek =>
    unfold execPeek
    rw [← s.whenInside_withStatus w h b l]
    rfl
  case clear => rfl
  case fill => rfl
  case span =>
    unfold execSpan
    rw [apply_ite (Answer.mapNext _), ← s.whenInside_withStatus w h b l, ← State.done_withStatus _ _ _ _ l,
      ← State.spanWrite_withStatus]
    rfl
  case blit => exact s.blit_withStatus ..
  case blitr => exact s.blit_withStatus ..
  case scrlr => exact s.scroll_withStatus ..
  case scrlc => exact s.scroll_withStatus ..

end

/-- Settles O28: the changed registers are carried through every shared operation, and `done` sets LAST anew. -/
theorem statusAndScreenSizeDoNotMatter : Obligations.StatusAndScreenSizeDoNotMatter := by
  unfold Obligations.StatusAndScreenSizeDoNotMatter
  exact fun i s w h l b ho => exec_withStatus s w h b l i ho

end Sys2Proof.Machine
end

section
/-! Commands beyond the buffer fault, and the virtual screen's offset only translates (`20_memory.md` R54, R55, R62). -/

namespace Sys2Proof.Machine

/-! ## Outside the buffer a command faults (R62, log entry 11) -/

theorem State.whenInside_faults {s : State} {a : Nat} (h : ¬ a < s.cfg.fbLen) (t : State) :
    s.whenInside a t = .fault .outOfBuffer := if_neg h

theorem State.blit_faults {s : State} {x y : Half} {side tfmt : Byte} (h : s.tileInBuffer x y side tfmt = false)
    (ptr : Word) (g : Stage) : s.blit x y side tfmt ptr g = .fault .outOfBuffer := by
  simp only [State.tileInBuffer, Bool.or_eq_false_iff, decide_eq_false_iff_not, not_not] at h
  obtain ⟨⟨hf, h0⟩, hlast⟩ := h
  have hside : side.toNat ≠ 0 := fun he => h0 (BitVec.eq_of_toNat_eq he)
  simp only [State.blit]
  rw [if_pos hf, if_neg hside]
  exact State.whenInside_faults hlast _

/-- Only the five commands with an address check can be outside the buffer; the others compute no checked address. -/
theorem exec_faults_of_not_inBuffer {i : Instr} {s : State} (h : s.inBuffer i = false) :
    exec i s = .fault .outOfBuffer := by
  cases i with
  | poke | peek => exact State.whenInside_faults (of_decide_eq_false h) _
  | span x y len v =>
    simp only [State.inBuffer, Bool.or_eq_false_iff, decide_eq_false_iff_not] at h
    obtain ⟨h0, hlast⟩ := h
    have hlen : len.toNat ≠ 0 := fun he => h0 (BitVec.eq_of_toNat_eq he)
    exact (if_neg hlen).trans (State.whenInside_faults hlast _)
  | blit | blitr => exact State.blit_faults h _ _
  | nop | init | setfmt | setvs | getreg | clear | fill | scrlr | scrlc => simp [State.inBuffer] at h

/-- Settles O26: `State.inBuffer` is the check each command makes, and its two answers are the command's two
outcomes. -/
theorem completesExactlyInBuffer : Obligations.CompletesExactlyInBuffer := by
  unfold Obligations.CompletesExactlyInBuffer
  exact fun i s => ⟨exec_completes_of_inBuffer, exec_faults_of_not_inBuffer⟩

/-! ## Changing VS_OFF alone -/

/-- `s` with VS_OFF changed. -/
def State.withOffset (s : State) (col row : Half) : State := { s with vsCol := col, vsRow := row }

/-- `s` with a zero VS_OFF, where a command's coordinates are physical ones. -/
def State.atOrigin (s : State) : State := s.withOffset 0 0

section
variable (s : State) (col row : Half)

theorem State.pixWrite_withOffset (L : Nat) (v : Half) :
    (s.withOffset col row).pixWrite L v = (s.pixWrite L v).withOffset col row := by
  have hfb := State.pixWrite_fb_congr (s := s) (s' := s.withOffset col row) rfl rfl rfl L v
  rw [State.pixWrite_onlyFb, State.pixWrite_onlyFb s, hfb]
  rfl

theorem State.spanWrite_withOffset (L n : Nat) (v : Half) :
    (s.withOffset col row).spanWrite L n v = (s.spanWrite L n v).withOffset col row := by
  have hfb := State.spanWrite_fb_congr (s := s) (s' := s.withOffset col row) rfl rfl rfl L n v
  rw [State.spanWrite_onlyFb, State.spanWrite_onlyFb s, hfb]
  rfl

theorem State.blitRows_withOffset (T : Tile) (g : Stage) (px py n : Nat) :
    (s.withOffset col row).blitRows T g px py n = (s.blitRows T g px py n).withOffset col row := by
  have hfb := State.blitRows_fb_congr (s := s) (s' := s.withOffset col row) rfl rfl rfl rfl T g px py n
  rw [State.blitRows_onlyFb, State.blitRows_onlyFb s, hfb]
  rfl

theorem State.done_withOffset (c : Code) : (s.withOffset col row).done c = (s.done c).withOffset col row := rfl

theorem State.whenInside_withOffset (a : Nat) (t : State) :
    (s.withOffset col row).whenInside a (t.withOffset col row) =
      Answer.mapNext (State.withOffset · col row) (s.whenInside a t) := by
  unfold State.whenInside
  rw [apply_ite (Answer.mapNext _)]
  rfl

end

/-! ## A command at (x, y) is the command at the physical coordinate with a zero offset -/

section
variable {s : State} {x y px py : Half} (hx : px.toNat = x.toNat + s.vsCol.toNat)
  (hy : py.toNat = y.toNat + s.vsRow.toNat)

include hx in
theorem State.px_atOrigin : s.atOrigin.px px = s.px x := hx

include hy in
theorem State.py_atOrigin : s.atOrigin.py py = s.py y := hy

include hx hy

theorem State.linIndex_atOrigin : s.atOrigin.linIndex px py = s.linIndex x y := by
  unfold State.linIndex
  rw [State.px_atOrigin hx, State.py_atOrigin hy]
  rfl

theorem exec_poke_atOrigin (v : Half) : exec (.poke x y v) s =
    Answer.mapNext (State.withOffset · s.vsCol s.vsRow) (exec (.poke px py v) s.atOrigin) := by
  simp only [exec, execPoke, State.linIndex_atOrigin hx hy]
  rw [← State.whenInside_withOffset, ← State.done_withOffset, ← State.pixWrite_withOffset]
  rfl

theorem exec_peek_atOrigin : exec (.peek x y) s =
    Answer.mapNext (State.withOffset · s.vsCol s.vsRow) (exec (.peek px py) s.atOrigin) := by
  simp only [exec, execPeek, State.linIndex_atOrigin hx hy]
  rw [← State.whenInside_withOffset]
  rfl

theorem exec_span_atOrigin (len : Word) (v : Half) : exec (.span x y len v) s =
    Answer.mapNext (State.withOffset · s.vsCol s.vsRow) (exec (.span px py len v) s.atOrigin) := by
  simp only [exec, execSpan, State.linIndex_atOrigin hx hy]
  rw [apply_ite (Answer.mapNext _), ← State.whenInside_withOffset, ← State.done_withOffset,
    ← State.spanWrite_withOffset]
  rfl

theorem State.blit_atOrigin (side tfmt : Byte) (ptr : Word) (g : Stage) : s.blit x y side tfmt ptr g =
    Answer.mapNext (State.withOffset · s.vsCol s.vsRow) (s.atOrigin.blit px py side tfmt ptr g) := by
  simp only [State.blit, State.px_atOrigin hx, State.py_atOrigin hy]
  rw [apply_ite (Answer.mapNext _), apply_ite (Answer.mapNext _), ← State.whenInside_withOffset,
    ← State.done_withOffset, ← State.blitRows_withOffset]
  rfl

end

/-- Settles O29: the sums are the definitions of R54 and R55, and what a command does beyond its coordinate does not
look at VS_OFF. -/
theorem virtualOffsetTranslates : Obligations.VirtualOffsetTranslates := by
  unfold Obligations.VirtualOffsetTranslates
  refine fun s => ⟨fun _ _ => rfl, fun _ _ => ⟨rfl, rfl, rfl⟩, fun x y px py hx hy => ?_⟩
  exact ⟨exec_poke_atOrigin hx hy, exec_peek_atOrigin hx hy, exec_span_atOrigin hx hy,
    fun side tfmt ptr => State.blit_atOrigin hx hy side tfmt ptr .identity,
    fun side tfmt ptr pat repl => State.blit_atOrigin hx hy side tfmt ptr _⟩

end Sys2Proof.Machine
end

section
/-! Where each format keeps a pixel (`20_memory.md` R50), and one format's bytes seen in another (R51). -/

namespace Sys2Proof

/-- Shifting a field down and masking it is cutting it out (R56). -/
theorem Format.field_eq_extractLsb' (f : Format) (v : Byte) (sh : Nat) :
    (v.setWidth 16 >>> sh) &&& f.pixMask = (v.extractLsb' sh f.bpp).setWidth 16 := by
  refine BitVec.eq_of_getLsbD_eq fun i hi => ?_
  simp only [BitVec.getLsbD_and, Format.pixMask_getLsbD, BitVec.getLsbD_ushiftRight, BitVec.getLsbD_setWidth,
    BitVec.getLsbD_extractLsb', hi, decide_true, Bool.true_and, Bool.and_comm (x := decide (i < f.bpp))]
  congr 1
  by_cases h : sh + i < 8
  · rw [decide_eq_true (by omega), Bool.true_and]
  · rw [BitVec.getLsbD_of_ge _ _ (Nat.le_of_not_lt h), Bool.and_false]

theorem extractLsb'_one (v : Byte) (k : Nat) : v.extractLsb' k 1 = BitVec.ofBool (v.getLsbD k) := by
  refine BitVec.eq_of_getLsbD_eq fun i hi => ?_
  obtain rfl : i = 0 := by omega
  simp

/-- A field of a field. -/
theorem extractLsb'_extractLsb' {w n a len : Nat} (v : BitVec w) (k : Nat) (h : a + len ≤ n) :
    (v.extractLsb' k n).extractLsb' a len = v.extractLsb' (k + a) len := by
  refine BitVec.eq_of_getLsbD_eq fun i hi => ?_
  simp only [BitVec.getLsbD_extractLsb', Nat.add_assoc]
  rw [decide_eq_true (show a + i < n by omega), Bool.true_and]

end Sys2Proof

namespace Sys2Proof.Machine

/-- A pixel of a sub-byte format is the field at its place in its byte (R56). -/
theorem State.pixRead_of_subByte {s : State} {f : Format} (h : s.fmt = f) (hb : f.bpp < 8) (L : Nat) :
    s.pixRead L = ((s.fbByte (f.pixByte L)).extractLsb' (f.pixShift L) f.bpp).setWidth 16 := by
  rw [← Format.field_eq_extractLsb', State.pixRead, h]
  cases f <;> simp [Format.bpp] at hb ⊢

theorem State.pixRead_grey1 {s : State} (h : s.fmt = .grey1) (L : Nat) :
    s.pixRead L = (BitVec.ofBool ((s.fbByte (L / 8)).getLsbD (7 - L % 8))).setWidth 16 := by
  have hbyte : Format.pixByte .grey1 L = L / 8 := by simp [Format.pixByte, Format.bpp]
  have hshift : Format.pixShift .grey1 L = 7 - L % 8 := by simp [Format.pixShift, Format.pixOffset, Format.bpp]
  rw [State.pixRead_of_subByte h (by decide), hbyte, hshift, ← extractLsb'_one]
  rfl

theorem State.pixRead_grey2 {s : State} (h : s.fmt = .grey2) (L : Nat) :
    s.pixRead L = ((s.fbByte (L / 4)).extractLsb' (6 - 2 * (L % 4)) 2).setWidth 16 := by
  have hbyte : Format.pixByte .grey2 L = L / 4 := by simp only [Format.pixByte, Format.bpp]; omega
  have hshift : Format.pixShift .grey2 L = 6 - 2 * (L % 4) := by
    simp only [Format.pixShift, Format.pixOffset, Format.bpp]; omega
  rw [State.pixRead_of_subByte h (by decide), hbyte, hshift]
  rfl

theorem State.pixRead_grey4 {s : State} (h : s.fmt = .grey4) (L : Nat) :
    s.pixRead L = ((s.fbByte (L / 2)).extractLsb' (if L % 2 = 0 then 4 else 0) 4).setWidth 16 := by
  have hbyte : Format.pixByte .grey4 L = L / 2 := by simp only [Format.pixByte, Format.bpp]; omega
  have hshift : Format.pixShift .grey4 L = if L % 2 = 0 then 4 else 0 := by
    simp only [Format.pixShift, Format.pixOffset, Format.bpp]; split <;> omega
  rw [State.pixRead_of_subByte h (by decide), hbyte, hshift]
  rfl

theorem half_of_bytes_eq_or (hi lo : Byte) : (hi ++ lo : Half) = lo.setWidth 16 ||| (hi.setWidth 16 <<< 8) := by
  rw [BitVec.or_comm, ← BitVec.setWidth_append_eq_shiftLeft_setWidth_or, BitVec.setWidth_eq]

/-- Settles O32: the layout of each format. -/
theorem pixelLayout : Obligations.PixelLayout := by
  unfold Obligations.PixelLayout
  intro s L
  cases h : s.fmt with
  | grey1 => exact State.pixRead_grey1 h L
  | grey2 => exact State.pixRead_grey2 h L
  | grey4 => exact State.pixRead_grey4 h L
  | indexed8 => exact State.pixRead_indexed8 h L
  | rgb565 => exact (State.pixRead_rgb565 h L).trans (half_of_bytes_eq_or _ _)

/-! ## One format's bytes as pixels of another -/

theorem Format.trunc_rgb565 (v : Half) : Format.trunc .rgb565 v = v := BitVec.and_allOnes

/-- PixWrite in RGB565 stores the value's low byte first (R51). -/
theorem State.fbByte_pixWrite_rgb565 {s : State} (h : s.fmt = .rgb565) (L : Nat) (v : Half) :
    (s.pixWrite L v).fbByte (2 * L) = v.extractLsb' 0 8 ∧ (s.pixWrite L v).fbByte (2 * L + 1) = v.extractLsb' 8 8 := by
  rw [State.pixWrite_rgb565 h, State.fbByte_memWrite, State.fbByte_memWrite, State.fbByte_memWrite, if_neg (by omega),
    if_pos rfl, if_pos rfl, BitVec.setWidth_eq_extractLsb' (by decide)]
  exact ⟨rfl, rfl⟩

theorem exec_poke_rgb565 {s : State} {x y v : Half} (hf : s.fmt = .rgb565) (hin : s.inBuffer (.poke x y v) = true) :
    ∃ t, exec (.poke x y v) s = .next t ∧ t.fbByte (2 * s.linIndex x y) = v.extractLsb' 0 8 ∧
      t.fbByte (2 * s.linIndex x y + 1) = v.extractLsb' 8 8 := by
  have hpoke := exec_poke_of_inBuffer (s := s) (x := x) (y := y) hin v
  rw [hf, Format.trunc_rgb565] at hpoke
  exact ⟨_, hpoke, State.fbByte_pixWrite_rgb565 hf _ v⟩

/-- After a SETFMT to GREY4 the two nibbles of a byte are two pixels, the high one first (R50). -/
theorem State.pixRead_setfmt_grey4 {t : State} {B k : Nat} {v : Half} (hB : t.fbByte B = v.extractLsb' k 8) :
    (State.done { t with fmt := .grey4 } .ok).pixRead (2 * B) = (v.extractLsb' (k + 4) 4).setWidth 16 ∧
    (State.done { t with fmt := .grey4 } .ok).pixRead (2 * B + 1) = (v.extractLsb' k 4).setWidth 16 := by
  have hbyte : (State.done { t with fmt := .grey4 } .ok).fbByte B = v.extractLsb' k 8 := hB
  rw [State.pixRead_grey4 rfl, State.pixRead_grey4 rfl, if_pos (by omega), if_neg (by omega),
    show 2 * B / 2 = B by omega, show (2 * B + 1) / 2 = B by omega, hbyte,
    extractLsb'_extractLsb' v k (by decide), extractLsb'_extractLsb' v k (by decide)]
  exact ⟨rfl, rfl⟩

/-- Settles O38: POKE stores the value's two bytes, which SETFMT leaves and the other formats read by R50. -/
theorem formatsAreViewsOfTheSameBytes : Obligations.FormatsAreViewsOfTheSameBytes := by
  unfold Obligations.FormatsAreViewsOfTheSameBytes
  intro s x y v hf hin
  obtain ⟨t, hpoke, hlow, hhigh⟩ := exec_poke_rgb565 hf hin
  refine ⟨t, hpoke, _, rfl, ?_, ?_, _, rfl, ?_⟩
  · exact (State.pixRead_indexed8 rfl _).trans (congrArg _ hlow)
  · exact (State.pixRead_indexed8 rfl _).trans (congrArg _ hhigh)
  · obtain ⟨h0, h1⟩ := State.pixRead_setfmt_grey4 hlow
    obtain ⟨h2, h3⟩ := State.pixRead_setfmt_grey4 hhigh
    rw [show 4 * s.linIndex x y = 2 * (2 * s.linIndex x y) by omega]
    exact ⟨h0, h1, h2, h3⟩

end Sys2Proof.Machine
end

section
/-! What a fill byte holds, and the pixels of a SPAN (`42_fill.md` R142, R143). -/

namespace Sys2Proof

theorem Format.trunc_toNat_lt (f : Format) (v : Half) : (f.trunc v).toNat < 2 ^ f.bpp := by
  have hmask : f.pixMask.toNat < 2 ^ f.bpp := by cases f <;> decide
  exact lt_of_le_of_lt (by rw [Format.trunc, BitVec.toNat_and]; exact Nat.and_le_right) hmask

/-- The expanded byte repeats the bits of a value of the format (R143). -/
theorem Format.expand_getLsbD {f : Format} (hf : f.bpp < 8) {v : Half} (hv : v.toNat < 2 ^ f.bpp) {k : Nat}
    (hk : k < 8) : (f.expand v).getLsbD k = v.getLsbD (k % f.bpp) := by
  have hall : ∀ n < 2 ^ f.bpp, ∀ k < 8,
      (f.expand (BitVec.ofNat 16 n)).getLsbD k = (BitVec.ofNat 16 n).getLsbD (k % f.bpp) := by
    cases f with
    | grey1 | grey2 | grey4 => decide
    | indexed8 | rgb565 => simp [Format.bpp] at hf
  simpa using hall v.toNat hv k hk

theorem Format.fillByte_of_subByte {f : Format} (hf : f.bpp < 8) (v : Half) (a : Nat) :
    f.fillByte v a = f.expand v := by
  cases f with
  | grey1 | grey2 | grey4 => rfl
  | indexed8 | rgb565 => simp [Format.bpp] at hf

theorem Format.fillByte_indexed8 (v : Half) (a : Nat) : Format.fillByte .indexed8 v a = v.extractLsb' 0 8 :=
  BitVec.setWidth_eq_extractLsb' (by decide)

/-- The low byte at even addresses, the high byte at odd ones (R144). -/
theorem Format.fillByte_rgb565 (v : Half) (a : Nat) :
    Format.fillByte .rgb565 v a = v.extractLsb' (8 * (a % 2)) 8 := by
  unfold Format.fillByte
  rcases Nat.mod_two_eq_zero_or_one a with h | h <;> rw [h]
  · exact BitVec.setWidth_eq_extractLsb' (by decide)
  · exact BitVec.setWidth_ushiftRight_eq_extractLsb

/-- Bit i of a value stands in the fill bytes at the place of bit i of every pixel (R50, R144). -/
theorem Format.fillByte_fieldBit (f : Format) (v : Half) (L : Nat) {i : Nat} (hi : i < f.bpp) :
    (f.fillByte (f.trunc v) ((L * f.bpp + f.fieldBit i) / 8)).getLsbD (7 - (L * f.bpp + f.fieldBit i) % 8) =
      v.getLsbD i := by
  have htrunc : (f.trunc v).getLsbD i = v.getLsbD i := by simp [Format.trunc_getLsbD, hi]
  rw [← htrunc]
  by_cases hb : f.bpp < 8
  · rw [Format.fillByte_of_subByte hb, Format.expand_getLsbD hb (f.trunc_toNat_lt v) (by omega)]
    congr 1
    cases f <;> simp only [Format.bpp, Format.fieldBit] at hb hi ⊢ <;> omega
  · rcases Format.eq_of_byte hb with rfl | rfl
    · rw [Format.fillByte_indexed8]
      simp only [Format.bpp, Format.fieldBit] at hi ⊢
      rw [BitVec.getLsbD_extractLsb', decide_eq_true (by omega), Bool.true_and]
      congr 1
      omega
    · rw [Format.fillByte_rgb565]
      simp only [Format.bpp, Format.fieldBit] at hi ⊢
      rw [BitVec.getLsbD_extractLsb', decide_eq_true (by omega), Bool.true_and]
      congr 1
      omega

end Sys2Proof

namespace Sys2Proof.Machine

/-- A pixel whose bits are those of the fill bytes of a value reads the value. -/
theorem State.pixRead_of_fillByte {s t : State} (hf : t.fmt = s.fmt) {L : Nat} {v : Half}
    (h : ∀ A, L * s.fmt.bpp ≤ A → A < (L + 1) * s.fmt.bpp →
      t.fbBit A = (s.fmt.fillByte (s.fmt.trunc v) (A / 8)).getLsbD (7 - A % 8)) :
    t.pixRead L = s.fmt.trunc v := by
  refine BitVec.eq_of_getLsbD_eq fun i _ => ?_
  rw [Format.trunc_getLsbD]
  by_cases hi : i < s.fmt.bpp
  · have hlt := s.fmt.fieldBit_lt hi
    have hend : L * s.fmt.bpp + s.fmt.fieldBit i < (L + 1) * s.fmt.bpp := by rw [Nat.add_one_mul]; omega
    rw [State.pixRead_fieldBit _ _ (hf ▸ hi), hf, h _ (Nat.le_add_right ..) hend, Format.fillByte_fieldBit _ _ _ hi,
      decide_eq_true hi, Bool.and_true]
  · rw [State.pixRead_getLsbD_of_ge _ _ (hf ▸ Nat.le_of_not_lt hi), decide_eq_false hi, Bool.and_false]

@[simp] theorem State.spanWrite_fmt (s : State) (L n : Nat) (v : Half) : (s.spanWrite L n v).fmt = s.fmt := by
  rw [State.spanWrite_onlyFb]

theorem State.fbBit_writeRange (s : State) (a n : Nat) (f : Nat → Byte) (A : Nat) :
    (s.writeRange a n f).fbBit A =
      if 8 * a ≤ A ∧ A < 8 * (a + n) then (f (A / 8)).getLsbD (7 - A % 8) else s.fbBit A := by
  rw [State.fbBit, State.fbByte_writeRange, apply_ite (BitVec.getLsbD · _)]
  exact if_congr (by omega) rfl rfl

/-- SPAN puts the fill bytes' bits at the bit addresses of its pixels and at no others (R65, R142). -/
theorem State.fbBit_spanWrite (s : State) (L : Nat) {n : Nat} (hn : 0 < n) (v : Half) (A : Nat) :
    (s.spanWrite L n v).fbBit A = if L * s.fmt.bpp ≤ A ∧ A < (L + n) * s.fmt.bpp then
      (s.fmt.fillByte v (A / 8)).getLsbD (7 - A % 8) else s.fbBit A := by
  have hpos : L * s.fmt.bpp < (L + n) * s.fmt.bpp := Nat.mul_lt_mul_of_pos_right (by omega) s.fmt.bpp_pos
  unfold State.spanWrite
  cases h : s.fmt with
  | grey1 | grey2 | grey4 => exact s.fbBit_maskedRun (h ▸ hpos) _ rfl A
  | indexed8 | rgb565 =>
    simp only [State.fbBit_writeRange, Format.bpp]
    exact if_congr (by omega) rfl rfl

/-- Settles O44: the bits SPAN writes are those of its pixels, and each holds the value. -/
theorem spanFillsPixels : Obligations.SpanFillsPixels := by
  unfold Obligations.SpanFillsPixels
  intro s x y value len L0 hn hlast
  have hbit := s.fbBit_spanWrite L0 hn (s.fmt.trunc value)
  refine ⟨(s.spanWrite L0 len.toNat (s.fmt.trunc value)).done .ok, ?_, fun L hlo hhi => ?_, fun L hout => ?_⟩
  · exact (if_neg hn.ne').trans (State.whenInside_next.mpr ⟨hlast, rfl⟩)
  · refine State.pixRead_of_fillByte (by simp) fun A h0 h1 => ?_
    have hle := Nat.mul_le_mul_right s.fmt.bpp hlo
    have hge := Nat.mul_le_mul_right s.fmt.bpp (Nat.succ_le_of_lt hhi)
    exact (hbit A).trans (if_pos ⟨hle.trans h0, h1.trans_le hge⟩)
  · exact State.pixRead_frame (by simp) (fun A hA => (hbit A).trans (if_neg hA)) hout

end Sys2Proof.Machine
end

section
/-! The row geometry of a blit (`20_memory.md` R53, `43_blit.md` R167, R175). -/

namespace Sys2Proof

/-- Every scanline of a legal configuration starts on a multiple of eight pixels (R10, R53). -/
theorem Config.lin_eq_eight_mul_add {c : Config} (hc : c.legal = true) (px py : Nat) :
    ∃ m, c.lin px py = 8 * m + px := by
  obtain ⟨-, -, hw, -⟩ := c.legal_iff.mp hc
  obtain ⟨k, hk⟩ := Nat.dvd_of_mod_eq_zero hw
  exact ⟨py * k, by rw [Config.lin, hk, Nat.mul_left_comm]⟩

/-- Settles O50: eight pixels of any format fill whole bytes, so the start of the scanline drops out. -/
theorem alignmentSameForEveryRow : Obligations.AlignmentSameForEveryRow := by
  unfold Obligations.AlignmentSameForEveryRow
  intro c f px py j side hc
  obtain ⟨m, hm⟩ := c.lin_eq_eight_mul_add hc px (py + j)
  have hoffset : c.lin px (py + j) * f.bpp % 8 = px * f.bpp % 8 := by
    rw [hm, Nat.add_mul, Nat.mul_assoc, Nat.mul_add_mod]
  refine ⟨hoffset, fun hf => ?_, by rw [hoffset]⟩
  rw [hm]
  cases f <;> simp only [Format.bpp, Format.ppb] at hf ⊢ <;> omega

/-- A byte is a bit-range mask when its bits are those whose addresses lie in the range (R65). -/
theorem byteMask_eq_of_getLsbD {B a0 a1 : Nat} {m : Byte}
    (h : ∀ i, i < 8 → (m.getLsbD i = true ↔ a0 ≤ 8 * B + (7 - i) ∧ 8 * B + (7 - i) < a1)) : byteMask B a0 a1 = m := by
  refine BitVec.eq_of_getLsbD_eq fun i hi => ?_
  rw [byteMask_getLsbD hi, Bool.eq_iff_iff, decide_eq_true_iff, h i hi]

theorem ffShiftRight_getLsbD (o i : Nat) : (0xFF#8 >>> o).getLsbD i = true ↔ i + o < 8 := by
  rw [BitVec.getLsbD_ushiftRight, byte_ff_getLsbD, decide_eq_true_iff, Nat.add_comm]

theorem ffShiftLeft_getLsbD {i : Nat} (hi : i < 8) (k : Nat) : (0xFF#8 <<< k).getLsbD i = true ↔ k ≤ i := by
  rw [BitVec.getLsbD_shiftLeft, byte_ff_getLsbD]
  simp only [Bool.and_eq_true, Bool.not_eq_true', decide_eq_true_eq, decide_eq_false_iff_not]
  omega

/-- Settles O52: each formula has the bits of `byteMask`, which are those of the row. -/
theorem maskGeneratorFormulas : Obligations.MaskGeneratorFormulas := by
  unfold Obligations.MaskGeneratorFormulas
  intro a0 w hw o nd e
  refine ⟨fun d i _ hi => by rw [byteMask_getLsbD hi, decide_eq_true_iff], fun h1 => ?first, fun h1 => ?last,
    fun h1 => ?only, fun d h0 h1 => ?inner⟩
  case first =>
    exact byteMask_eq_of_getLsbD fun i hi => by rw [ffShiftRight_getLsbD]; omega
  case last =>
    exact byteMask_eq_of_getLsbD fun i hi => by rw [ffShiftLeft_getLsbD hi]; omega
  case only =>
    refine byteMask_eq_of_getLsbD fun i hi => ?_
    rw [BitVec.getLsbD_and, Bool.and_eq_true, ffShiftRight_getLsbD, ffShiftLeft_getLsbD hi]
    omega
  case inner =>
    exact byteMask_eq_of_getLsbD fun i hi => by
      rw [show (0xFF : Byte) = 0xFF#8 from rfl, byte_ff_getLsbD, decide_eq_true_iff]; omega

end Sys2Proof
end

section
/-! Decoding and encoding (`30_encoding.md` R80 to R93): OP selects the command, the fields of the command's format give
its operands, and no other bit matters. -/

namespace Sys2Proof

/-! ## OP selects the command (R86, R88) -/

/-- The laws of `Laws.EncodedOpcode` for every command at once. -/
theorem Instr.encodedOpcode (i : Instr) : Laws.EncodedOpcode.Statement i :=
  match i with
  | .nop => Laws.EncodedOpcode.nop
  | .init .. => Laws.EncodedOpcode.init ..
  | .setfmt .. => Laws.EncodedOpcode.setfmt ..
  | .setvs .. => Laws.EncodedOpcode.setvs ..
  | .getreg .. => Laws.EncodedOpcode.getreg ..
  | .poke .. => Laws.EncodedOpcode.poke ..
  | .peek .. => Laws.EncodedOpcode.peek ..
  | .clear => Laws.EncodedOpcode.clear
  | .fill .. => Laws.EncodedOpcode.fill ..
  | .span .. => Laws.EncodedOpcode.span ..
  | .blit .. => Laws.EncodedOpcode.blit ..
  | .blitr .. => Laws.EncodedOpcode.blitr ..
  | .scrlr .. => Laws.EncodedOpcode.scrlr ..
  | .scrlc .. => Laws.EncodedOpcode.scrlc ..

theorem op_encode (i : Instr) : Descriptor.op (encode i) = i.opcode := i.encodedOpcode.left

theorem Instr.opcode_mem (i : Instr) : i.opcode ∈ definedOpcodes := i.encodedOpcode.right

/-- A descriptor is a command with its own OP, or its OP is a reserved one. -/
theorem decode_ok_or_reserved (d : Descriptor) :
    (∃ i, decode d = .ok i ∧ i.opcode = d.op) ∨
    (d.op ∉ definedOpcodes ∧ decode d = .error (.reservedOpcode d.op)) := by
  rcases decode_cases d with ⟨ho, hd⟩ | ⟨ho, hd⟩ | ⟨ho, hd⟩ | ⟨ho, hd⟩ | ⟨ho, hd⟩ | ⟨ho, hd⟩ | ⟨ho, hd⟩ | ⟨ho, hd⟩ |
    ⟨ho, hd⟩ | ⟨ho, hd⟩ | ⟨ho, hd⟩ | ⟨ho, hd⟩ | ⟨ho, hd⟩ | ⟨ho, hd⟩ | hreserved
  on_goal 15 => exact .inr hreserved
  all_goals exact .inl ⟨_, hd, ho.symm⟩

theorem opcode_of_decode {d : Descriptor} {i : Instr} (h : decode d = .ok i) : i.opcode = d.op := by
  rcases decode_ok_or_reserved d with ⟨j, hj, ho⟩ | ⟨-, hd⟩
  · cases hj.symm.trans h
    exact ho
  · cases hd.symm.trans h

theorem decode_of_mem {d : Descriptor} (h : d.op ∈ definedOpcodes) : ∃ i, decode d = .ok i := by
  rcases decode_ok_or_reserved d with ⟨i, hd, -⟩ | ⟨hn, -⟩
  · exact ⟨i, hd⟩
  · exact absurd h hn

theorem decode_of_reserved {d : Descriptor} (h : d.op ∉ definedOpcodes) : decode d = .error (.reservedOpcode d.op) := by
  rcases decode_ok_or_reserved d with ⟨i, -, ho⟩ | ⟨-, hd⟩
  · exact absurd (ho ▸ i.opcode_mem) h
  · exact hd

/-- Settles O4: an opcode of the map is a command's, and no command has another. -/
theorem opcodeSelectsCommand : Obligations.OpcodeSelectsCommand := by
  unfold Obligations.OpcodeSelectsCommand
  intro d
  refine ⟨⟨fun h hm => ?_, decode_of_reserved⟩, decode_of_mem, fun i => opcode_of_decode⟩
  obtain ⟨i, hd⟩ := decode_of_mem hm
  cases hd.symm.trans h

/-! ## The operands are the fields of the format (R81, R82) -/

/-- The command of the same opcode whose operands are the fields of a descriptor. -/
def Instr.withFields (i : Instr) (d : Descriptor) : Instr :=
  match i with
  | .nop => .nop
  | .init _ _ _ _ _ => .init d.a8 d.x d.y d.value d.vsh
  | .setfmt _ => .setfmt d.a8
  | .setvs _ _ _ _ => .setvs d.x d.y d.value d.vsh
  | .getreg _ => .getreg d.a8
  | .poke _ _ _ => .poke d.x d.y d.value
  | .peek _ _ => .peek d.x d.y
  | .clear => .clear
  | .fill _ => .fill d.value
  | .span _ _ _ _ => .span d.x d.y d.w3 d.value
  | .blit _ _ _ _ _ => .blit d.x d.y d.a8 d.b8 d.w2
  | .blitr _ _ _ _ _ _ _ => .blitr d.x d.y d.a8 d.b8 d.w2 d.pat d.repl
  | .scrlr _ => .scrlr d.w2
  | .scrlc _ => .scrlc d.w2

theorem decode_of_op {d : Descriptor} {i : Instr} (h : d.op = i.opcode) : decode d = .ok (i.withFields d) := by
  cases i <;> simp [decode, h, Instr.opcode, Instr.withFields]

theorem decode_ok_iff {d : Descriptor} {i : Instr} : decode d = .ok i ↔ d.op = i.opcode ∧ i.withFields d = i := by
  constructor
  · intro h
    have ho := (opcode_of_decode h).symm
    exact ⟨ho, Except.ok.inj ((decode_of_op ho).symm.trans h)⟩
  · rintro ⟨ho, hi⟩
    rw [decode_of_op ho, hi]

theorem withFields_encode (i : Instr) : i.withFields (encode i) = i := by
  cases i <;> simp [Instr.withFields, encode]

/-- Settles O1: the encoder puts OP and every operand where the decoder reads them. -/
theorem decodeEncodeRoundTrip : Obligations.DecodeEncodeRoundTrip := by
  unfold Obligations.DecodeEncodeRoundTrip
  exact fun i => decode_ok_iff.mpr ⟨op_encode i, withFields_encode i⟩

theorem encode_injective : Function.Injective encode := fun i j h =>
  Except.ok.inj ((decodeEncodeRoundTrip i).symm.trans (h ▸ decodeEncodeRoundTrip j))

/-! ## No other bit matters (R90, log entry 9) -/

/-- What a mask that clears Z8 leaves of a descriptor, field by field. -/
theorem Descriptor.and_ofWords (d : Descriptor) (op a b : Byte) (w1 w2 w3 : Word) :
    d &&& .ofWords (.head op a b) w1 w2 w3 =
      .ofWords (.head (d.op &&& op) (d.a8 &&& a) (d.b8 &&& b)) (.pair d.y d.x &&& w1) (.pair d.vsh d.value &&& w2)
        (.pair d.repl d.pat &&& w3) := by
  conv_lhs => rw [d.eq_ofWords, Descriptor.ofWords_and, Word.head_and]

@[simp] theorem Byte.and_ff (v : Byte) : v &&& 0xFF#8 = v := BitVec.and_allOnes
@[simp] theorem Half.and_ffff (v : Half) : v &&& 0xFFFF#16 = v := BitVec.and_allOnes

theorem Descriptor.w2_eq_pair (d : Descriptor) : d.w2 = .pair d.vsh d.value := (Word.pair_extract d 64).symm
theorem Descriptor.w3_eq_pair (d : Descriptor) : d.w3 = .pair d.repl d.pat := (Word.pair_extract d 96).symm

theorem Descriptor.op_and_formatMask (d : Descriptor) (i : Instr) : Descriptor.op (d &&& i.formatMask) = d.op := by
  cases i <;> simp [Instr.formatMask, Descriptor.and_ofWords]

theorem encode_withFields {d : Descriptor} {i : Instr} (h : d.op = i.opcode) :
    encode (i.withFields d) = d &&& i.formatMask := by
  cases i <;> simp [Instr.withFields, encode, Instr.formatMask, Descriptor.and_ofWords, h, Instr.opcode, Word.pair_and,
    Descriptor.w2_eq_pair, Descriptor.w3_eq_pair]

/-- Settles O2: a decoded command holds the fields its format keeps. -/
theorem encodeDecodeKeepsFormatBits : Obligations.EncodeDecodeKeepsFormatBits := by
  unfold Obligations.EncodeDecodeKeepsFormatBits
  intro d i h
  obtain ⟨ho, hi⟩ := decode_ok_iff.mp h
  rw [← encode_withFields ho, hi]

/-- Agreeing on the bits of the format is agreeing on OP and on the operands. -/
theorem decode_eq_of_and_formatMask {d e : Descriptor} {i : Instr} (hd : decode d = .ok i)
    (hmask : e &&& i.formatMask = d &&& i.formatMask) : decode e = .ok i := by
  have ho : e.op = i.opcode := by
    rw [← e.op_and_formatMask i, hmask, d.op_and_formatMask, opcode_of_decode hd]
  have henc : encode (i.withFields e) = encode i := by
    rw [encode_withFields ho, hmask, encodeDecodeKeepsFormatBits d i hd]
  exact decode_ok_iff.mpr ⟨ho, encode_injective henc⟩

/-- Settles O3: a descriptor acts through the command it decodes to. -/
theorem reservedBitsIgnored : Obligations.ReservedBitsIgnored := by
  unfold Obligations.ReservedBitsIgnored
  intro d e i hd hmask
  have he := decode_eq_of_and_formatMask hd hmask
  exact ⟨he, fun s => by rw [Machine.State.runDescriptor, Machine.State.runDescriptor, hd, he]⟩

/-- Settles O5, by decoding each of the ten words. -/
theorem specWordsDecode : Obligations.SpecWordsDecode := by
  unfold Obligations.SpecWordsDecode
  decide

/-! ## Operand codes (R84) and reserved opcodes (R88) -/

theorem Format.ofCode_code (f : Format) : Format.ofCode f.code = some f := by cases f <;> rfl

/-- The codes 5 to 255 name no format. -/
theorem Format.ofCode_reserved {c : Byte} (h : 4 < c.toNat) : Format.ofCode c = none := by
  obtain ⟨k, hk⟩ : ∃ k, c.toNat = k + 5 := ⟨c.toNat - 5, by omega⟩
  rw [Format.ofCode, hk]
  rfl

theorem Format.bpp_ofCode {c : Byte} (h : c.toNat ≤ 4) : (Format.ofCode c).map Format.bpp = some (2 ^ c.toNat) := by
  rw [Format.ofCode]
  interval_cases c.toNat <;> rfl

/-- Settles O6: the codes up to 4 name a format of width `2^f`, the others none. -/
theorem formatCodes : Obligations.FormatCodes := by
  unfold Obligations.FormatCodes
  refine ⟨rfl, rfl, rfl, rfl, rfl, fun c => ?_, Format.ofCode_code, rfl, rfl, rfl, rfl⟩
  split
  · exact Format.bpp_ofCode ‹_›
  · rw [Format.ofCode_reserved (by omega), Option.map_none]

/-- The five ranges of R88. -/
theorem not_mem_definedOpcodes_iff (op : Byte) : op ∉ definedOpcodes ↔
    (0x05 ≤ op.toNat ∧ op.toNat ≤ 0x0F) ∨ (0x12 ≤ op.toNat ∧ op.toNat ≤ 0x1F) ∨
    (0x23 ≤ op.toNat ∧ op.toNat ≤ 0x2F) ∨ (0x32 ≤ op.toNat ∧ op.toNat ≤ 0x3F) ∨
    (0x42 ≤ op.toNat ∧ op.toNat ≤ 0xFF) := by
  simp only [definedOpcodes, List.mem_cons, List.not_mem_nil, or_false, ← BitVec.toNat_inj, BitVec.toNat_ofNat,
    BitVec.ofNat_eq_ofNat]
  omega

/-- Settles O7: a descriptor that decodes to no command is answered by `done(ILLEGAL)`. -/
theorem reservedOpcodeIsIllegal : Obligations.ReservedOpcodeIsIllegal := by
  unfold Obligations.ReservedOpcodeIsIllegal
  refine ⟨not_mem_definedOpcodes_iff, fun s d rest hl hi hn => ?_⟩
  rw [Machine.step_of_inputs_cons hl hi, Machine.State.accept, Machine.State.runDescriptor, decode_of_reserved hn]
  rfl

end Sys2Proof
end

section
/-! The configuration commands (`40_config.md`): what each of them answers, whole next state. -/

namespace Sys2Proof.Machine

/-! ## INIT and SETFMT, by what the format code names (R89, R111, R112) -/

section
variable {fmt : Byte} {f : Format} (ocol orow vsw vsh : Half) (s : State)

theorem exec_init_of_reserved (h : Format.ofCode fmt = none) :
    exec (.init fmt ocol orow vsw vsh) s = .next (s.done .illegal) := by
  rw [exec, execInit, h]

/-- A machine that is initialised stays so; INIT then changes format and virtual screen alone. -/
theorem State.initialise_of_inited (hi : s.inited = true) : s.initialise f ocol orow vsw vsh =
    ({ s.setVirtualScreen ocol orow vsw vsh with fmt := f } : State).doneWith .ok 1 := by
  rw [State.initialise, ← hi]
  rfl

theorem exec_init_of_inited (h : Format.ofCode fmt = some f) (hi : s.inited = true) :
    exec (.init fmt ocol orow vsw vsh) s =
      .next (({ s.setVirtualScreen ocol orow vsw vsh with fmt := f } : State).doneWith .ok 1) := by
  simp only [exec, execInit, h, hi, if_true, s.initialise_of_inited ocol orow vsw vsh hi]

theorem exec_init_of_bringUp (h : Format.ofCode fmt = some f) (hi : s.inited = false) (ha : s.bringUpAnswer = true) :
    exec (.init fmt ocol orow vsw vsh) s = .next (s.requestBringUp.initialise f ocol orow vsw vsh) := by
  simp only [exec, execInit, h, hi, ha, Bool.false_eq_true, if_false, if_true]

theorem exec_init_of_bringUp_fails (h : Format.ofCode fmt = some f) (hi : s.inited = false)
    (ha : s.bringUpAnswer = false) :
    exec (.init fmt ocol orow vsw vsh) s = .next (s.requestBringUp.doneWith .initFail 0) := by
  simp only [exec, execInit, h, hi, ha, Bool.false_eq_true, if_false]

theorem exec_setfmt_of_reserved (h : Format.ofCode fmt = none) : exec (.setfmt fmt) s = .next (s.done .illegal) := by
  rw [exec, execSetfmt, h]

theorem exec_setfmt_of_format (h : Format.ofCode fmt = some f) :
    exec (.setfmt fmt) s = .next (({ s with fmt := f } : State).done .ok) := by
  rw [exec, execSetfmt, h]

end

/-! ## GETREG, by what the register index names (R85, R114) -/

theorem State.readReg_of_le (s : State) {idx : Byte} (h : idx.toNat ≤ 7) : ∃ v, s.readReg idx = some v := by
  rw [State.readReg]
  interval_cases idx.toNat <;> exact ⟨_, rfl⟩

theorem exec_getreg_of_reserved {s : State} {idx : Byte} (h : s.readReg idx = none) :
    exec (.getreg idx) s = .next (s.done .illegal) := by
  rw [exec, execGetreg, h]

theorem exec_getreg_of_register {s : State} {idx : Byte} {v : Word} (h : s.readReg idx = some v) :
    exec (.getreg idx) s = .next (s.doneWith .ok v) := by
  rw [exec, execGetreg, h]

/-! ## The five commands -/

/-- Settles O16: NOP is `done(OK)`. -/
theorem nopEffect : Obligations.NopEffect := by
  unfold Obligations.NopEffect
  exact ⟨fun _ => decode_of_op (i := .nop), decode_of_op (i := .nop) rfl, fun _ => rfl⟩

/-- Settles O17: the format code, INITED and the transport's answer decide between the four outcomes. -/
theorem initEffect : Obligations.InitEffect := by
  unfold Obligations.InitEffect
  refine ⟨fun d => decode_of_op (i := .init d.a8 d.x d.y d.value d.vsh), fun s fmt ocol orow vsw vsh => ⟨?_, ?_⟩⟩
  · exact fun h => exec_init_of_reserved ocol orow vsw vsh s (Format.ofCode_reserved h)
  · intro f hf
    exact ⟨exec_init_of_inited ocol orow vsw vsh s hf, exec_init_of_bringUp ocol orow vsw vsh s hf,
      exec_init_of_bringUp_fails ocol orow vsw vsh s hf⟩

/-- Settles O18: the format code decides between `done(ILLEGAL)` and the new active format. -/
theorem setfmtEffect : Obligations.SetfmtEffect := by
  unfold Obligations.SetfmtEffect
  exact ⟨fun d => decode_of_op (i := .setfmt d.a8), fun s fmt =>
    ⟨fun h => exec_setfmt_of_reserved s (Format.ofCode_reserved h), fun f => exec_setfmt_of_format s⟩⟩

/-- Settles O19: SETVS stores its operands and is `done(OK)`. -/
theorem setvsEffect : Obligations.SetvsEffect := by
  unfold Obligations.SetvsEffect
  exact ⟨fun d => decode_of_op (i := .setvs d.x d.y d.value d.vsh), fun _ _ _ _ _ => rfl⟩

/-- Settles O20: the index decides between `done(ILLEGAL)` and an answer with the register's value. -/
theorem getregEffect : Obligations.GetregEffect := by
  unfold Obligations.GetregEffect
  refine ⟨fun d => decode_of_op (i := .getreg d.a8), fun s idx => ⟨?_, ?_⟩⟩
  · exact fun h => exec_getreg_of_reserved (s.readReg_reserved h)
  · intro h
    obtain ⟨v, hv⟩ := s.readReg_of_le h
    exact ⟨v, hv, exec_getreg_of_register hv⟩

end Sys2Proof.Machine
end

section
/-! Single-pixel access (`41_pixel_access.md`): what POKE and PEEK answer, whole next state. -/

namespace Sys2Proof

/-- Truncation to the low b bits is the remainder modulo 2^b (R13). -/
theorem Format.trunc_toNat (f : Format) (v : Half) : (f.trunc v).toNat = v.toNat % 2 ^ f.bpp := by
  have hmask : f.pixMask.toNat = 2 ^ f.bpp - 1 := by cases f <;> rfl
  rw [Format.trunc, BitVec.toNat_and, hmask, Nat.and_two_pow_sub_one_eq_mod]

end Sys2Proof

namespace Sys2Proof.Machine

/-- A read pixel is a value of the active format's width (R56). -/
theorem State.pixRead_lt (s : State) (L : Nat) : (s.pixRead L).toNat < 2 ^ s.fmt.bpp := by
  rw [← s.trunc_pixRead L]
  exact Format.trunc_toNat_lt ..

@[simp] theorem State.pixRead_done (s : State) (c : Code) (L : Nat) : (s.done c).pixRead L = s.pixRead L := rfl

/-- PixWrite leaves every byte that holds no bit of the pixel. -/
theorem State.fbByte_pixWrite_outside (s : State) {L a : Nat} (v : Half)
    (ha : ¬ (s.fmt.pixByte L ≤ a ∧ a ≤ s.fmt.lastByte L 1)) : (s.pixWrite L v).fbByte a = s.fbByte a :=
  State.fbByte_frame Nat.one_pos (fun _ hA => s.fbBit_pixWrite_outside v hA) ha

/-- A completed PixWrite changes the buffer, LAST and the responses alone. -/
theorem State.pixWrite_done_eq (s : State) (L : Nat) (v : Half) (c : Code) :
    (s.pixWrite L v).done c = { s with fb := (s.pixWrite L v).fb, last := c, rsp := s.rsp ++ [⟨c, 0⟩] } := by
  rw [State.pixWrite_onlyFb]
  rfl

/-- Settles O35, by the laws of PixWrite: it stores the truncated value in the pixel and leaves all other bits. -/
theorem pokeEffect : Obligations.PokeEffect := by
  unfold Obligations.PokeEffect
  refine ⟨fun d => decode_of_op (i := .poke d.x d.y d.value), fun s x y v =>
    ⟨s.fmt.trunc_toNat v, fun h => ⟨_, exec_poke_of_inBuffer (decide_eq_true h) v, ?_, ?_, ?_, ?_⟩⟩⟩
  · exact s.pixWrite_done_eq _ _ _
  · rw [State.pixRead_done, State.pixRead_pixWrite_same, Format.trunc_trunc]
  · intro L' hL'
    rw [State.pixRead_done, State.pixRead_pixWrite_of_ne _ hL']
  · intro a ha
    rw [State.fbByte_done, State.fbByte_pixWrite_outside _ _ ha]

/-- Settles O36: PEEK is `done(OK, result)` with a read pixel, which fits the format's width. -/
theorem peekEffect : Obligations.PeekEffect := by
  unfold Obligations.PeekEffect
  refine ⟨fun d => decode_of_op (i := .peek d.x d.y), fun s x y => ⟨?_, fun h => ?_⟩⟩
  · rw [BitVec.toNat_setWidth_of_le (by decide)]
    exact s.pixRead_lt _
  · exact exec_peek_of_inBuffer (decide_eq_true h)

end Sys2Proof.Machine
end

section
/-! The whole-screen commands ignore the virtual screen's offset (`42_fill.md` R144, `44_scroll.md` R193). -/

namespace Sys2Proof.Machine

theorem State.scroll_withOffset (s : State) (col row : Half) (count total : Nat) (f : Nat → Byte) :
    (s.withOffset col row).scroll count total f =
      Answer.mapNext (State.withOffset · col row) (s.scroll count total f) := by
  unfold State.scroll
  rw [apply_ite (Answer.mapNext _), apply_ite (Answer.mapNext _)]
  rfl

/-- Settles O30: none of the four computes a coordinate, so the changed offset is carried through. -/
theorem wholeScreenCommandsIgnoreOffset : Obligations.WholeScreenCommandsIgnoreOffset := by
  unfold Obligations.WholeScreenCommandsIgnoreOffset
  intro i s col row ho
  cases i with
  | clear | fill => rfl
  | scrlr | scrlc => exact s.scroll_withOffset col row _ _ _
  | nop | init | setfmt | setvs | getreg | poke | peek | span | blit | blitr => simp [Instr.opcode] at ho

end Sys2Proof.Machine
end

section
/-! The expanded byte by its formulas, and in each of its pixel fields (`42_fill.md` R143). -/

namespace Sys2Proof

theorem Format.trunc_eq_self {f : Format} {v : Half} (hv : v.toNat < 2 ^ f.bpp) : f.trunc v = v :=
  BitVec.eq_of_toNat_eq (by rw [Format.trunc_toNat, Nat.mod_eq_of_lt hv])

/-- Field k of the expanded byte holds the value: bit i of the field is bit i of the value. -/
theorem Format.expand_field {f : Format} (hf : f.bpp < 8) {v : Half} (hv : v.toNat < 2 ^ f.bpp) {k : Nat}
    (hk : k < f.ppb) : ((f.expand v).setWidth 16 >>> (8 - f.bpp - k * f.bpp)) &&& f.pixMask = v := by
  refine BitVec.eq_of_getLsbD_eq fun i _ => ?_
  rw [BitVec.getLsbD_and, Format.pixMask_getLsbD]
  by_cases hi : i < f.bpp
  · have hplace : 8 - f.bpp - k * f.bpp + i < 8 ∧ (8 - f.bpp - k * f.bpp + i) % f.bpp = i := by
      cases f <;> simp only [Format.bpp, Format.ppb] at hf hk hi ⊢ <;> omega
    obtain ⟨hlt, hmod⟩ := hplace
    rw [decide_eq_true hi, Bool.and_true, BitVec.getLsbD_ushiftRight, BitVec.getLsbD_setWidth,
      decide_eq_true (by omega), Bool.true_and, Format.expand_getLsbD hf hv hlt, hmod]
  · rw [← Format.trunc_eq_self hv, Format.trunc_getLsbD, decide_eq_false hi, Bool.and_false, Bool.and_false]

/-- A product of a value and a byte that fits eight bits is exact. -/
theorem setWidth_mul_toNat {v : Half} {c : Byte} (h : v.toNat * c.toNat < 256) (hc : 0 < c.toNat) :
    (v.setWidth 8 * c).toNat = v.toNat * c.toNat := by
  have hv : v.toNat < 256 := lt_of_le_of_lt (Nat.le_mul_of_pos_right _ hc) h
  rw [BitVec.toNat_mul, BitVec.toNat_setWidth, Nat.mod_eq_of_lt hv, Nat.mod_eq_of_lt h]

/-- Settles O39: the products of R143 stay below 256, and `Format.expand_field` reads the fields. -/
theorem expandedByteHoldsValue : Obligations.ExpandedByteHoldsValue := by
  unfold Obligations.ExpandedByteHoldsValue
  refine ⟨fun v => rfl, fun v hv => ?_, fun v hv => ?_, fun f v k hf hv hk => Format.expand_field hf hv hk⟩
  · exact setWidth_mul_toNat (c := 0x55) (show v.toNat * 0x55 < 256 by omega) (by decide)
  · exact setWidth_mul_toNat (c := 0x11) (show v.toNat * 0x11 < 256 by omega) (by decide)

end Sys2Proof
end

section
/-! FILL and CLEAR: every byte and every pixel of the active extent (`42_fill.md` R140, R141, R144). -/

namespace Sys2Proof

/-- The extent of a legal configuration is a whole number of bytes (R11). -/
theorem Config.extentBytes_mul_eight {c : Config} (hc : c.legal = true) (f : Format) :
    c.extentBytes f.bpp * 8 = c.extentPix * f.bpp := by
  obtain ⟨-, -, hw, -⟩ := c.legal_iff.mp hc
  have hdvd : 8 ∣ c.physW * c.physH * f.bpp := ((Nat.dvd_of_mod_eq_zero hw).mul_right _).mul_right _
  exact Nat.div_mul_cancel hdvd

end Sys2Proof

namespace Sys2Proof.Machine

theorem State.fbByte_fillExtent (s : State) (v : Half) (a : Nat) : (s.fillExtent v).fbByte a =
    if a < s.cfg.extentBytes s.fmt.bpp then s.fmt.fillByte v a else s.fbByte a := by
  rw [State.fillExtent, State.writeExtent, State.fbByte_writeRange]
  exact if_congr (by omega) rfl rfl

@[simp] theorem State.fillExtent_fmt (s : State) (v : Half) : (s.fillExtent v).fmt = s.fmt := rfl

/-- A completed fill changes the buffer, LAST and the responses alone. -/
theorem State.fillExtent_done_eq (s : State) (v : Half) (c : Code) :
    (s.fillExtent v).done c = { s with fb := (s.fillExtent v).fb, last := c, rsp := s.rsp ++ [⟨c, 0⟩] } := rfl

/-- A fill gives every pixel of the extent the truncated value, because the extent ends with a whole byte. -/
theorem State.pixRead_fillExtent {s : State} (hc : s.cfg.legal = true) (v : Half) {L : Nat}
    (hL : L < s.cfg.extentPix) : (s.fillExtent (s.fmt.trunc v)).pixRead L = s.fmt.trunc v := by
  refine State.pixRead_of_fillByte (s.fillExtent_fmt _) fun A _ hA => ?_
  have hend : (L + 1) * s.fmt.bpp ≤ s.cfg.extentPix * s.fmt.bpp := Nat.mul_le_mul_right _ hL
  have hbytes := Config.extentBytes_mul_eight hc s.fmt
  rw [State.fbBit, State.fbByte_fillExtent, if_pos (by omega)]

/-- A second fill with the same value changes no byte. -/
theorem State.fbByte_fillExtent_again (s : State) (v : Half) (c : Code) (a : Nat) :
    (((s.fillExtent v).done c).fillExtent v).fbByte a = (s.fillExtent v).fbByte a := by
  refine (State.fbByte_fillExtent _ v a).trans ?_
  split
  · rename_i ha
    exact ((s.fbByte_fillExtent v a).trans (if_pos ha)).symm
  · rfl

/-- Settles O40: FILL is `FillExtent` with the truncated value. -/
theorem fillEffect : Obligations.FillEffect := by
  unfold Obligations.FillEffect
  refine ⟨fun d => decode_of_op (i := .fill d.value), fun s v => ⟨_, rfl, s.fillExtent_done_eq _ _, ?_, ?_, ?_⟩⟩
  · exact fun a ha => (s.fbByte_fillExtent _ a).trans (if_pos ha)
  · exact fun a ha => (s.fbByte_fillExtent _ a).trans (if_neg (Nat.not_lt.mpr ha))
  · exact fun hc L hL => State.pixRead_fillExtent hc v hL

/-- Settles O41: CLEAR is FILL with the background value, and a fill repeated changes no byte. -/
theorem clearEffect : Obligations.ClearEffect := by
  unfold Obligations.ClearEffect
  refine ⟨fun d => decode_of_op (i := .clear), fun s => ?_⟩
  obtain ⟨-, hfill⟩ := fillEffect
  obtain ⟨t, ht, hregs, hin, hout, hpix⟩ := hfill s s.cfg.bg
  refine ⟨t, ht, hregs, hin, hout, hpix, _, rfl, fun a => ?_⟩
  cases ht
  exact (s.fbByte_fillExtent_again _ .ok a).symm

end Sys2Proof.Machine
end

section
/-! SPAN: what it stores, byte by byte (`42_fill.md` R142). -/

namespace Sys2Proof.Machine

/-! ## The bytes of `spanWrite` in each kind of format -/

theorem State.fbByte_spanWrite_of_subByte {s : State} (hb : s.fmt.bpp < 8) {L n B : Nat} (v : Half)
    (hlo : L * s.fmt.bpp / 8 ≤ B) (hhi : B ≤ ((L + n) * s.fmt.bpp - 1) / 8) :
    (s.spanWrite L n v).fbByte B =
      mergeByte (s.fbByte B) (byteMask B (L * s.fmt.bpp) ((L + n) * s.fmt.bpp)) (s.fmt.expand v) := by
  unfold State.spanWrite
  cases h : s.fmt with
  | grey1 | grey2 | grey4 =>
    rw [h] at hlo hhi
    exact (s.fbByte_maskedRun ..).trans (if_pos (by omega))
  | indexed8 | rgb565 => simp [h, Format.bpp] at hb

theorem State.fbByte_spanWrite_indexed8 {s : State} (h : s.fmt = .indexed8) {L0 n L : Nat} (v : Half) (hlo : L0 ≤ L)
    (hhi : L < L0 + n) : (s.spanWrite L0 n v).fbByte L = v.extractLsb' 0 8 := by
  rw [State.spanWrite, h]
  exact (s.fbByte_writeRange ..).trans ((if_pos ⟨hlo, hhi⟩).trans (Format.fillByte_indexed8 v L))

theorem State.fbByte_spanWrite_rgb565 {s : State} (h : s.fmt = .rgb565) {L0 n a : Nat} (v : Half) (hlo : 2 * L0 ≤ a)
    (hhi : a < 2 * (L0 + n)) : (s.spanWrite L0 n v).fbByte a = v.extractLsb' (8 * (a % 2)) 8 := by
  rw [State.spanWrite, h]
  exact (s.fbByte_writeRange ..).trans ((if_pos (by omega)).trans (Format.fillByte_rgb565 v a))

/-- SPAN leaves every byte that holds no bit of its pixels. -/
theorem State.fbByte_spanWrite_outside (s : State) {L n a : Nat} (hn : 0 < n) (v : Half)
    (ha : ¬ (s.fmt.pixByte L ≤ a ∧ a ≤ s.fmt.lastByte L n)) : (s.spanWrite L n v).fbByte a = s.fbByte a :=
  State.fbByte_frame hn (fun A hA => (s.fbBit_spanWrite L hn v A).trans (if_neg hA)) ha

/-- A completed SPAN changes the buffer, LAST and the responses alone. -/
theorem State.spanWrite_done_eq (s : State) (L n : Nat) (v : Half) (c : Code) :
    (s.spanWrite L n v).done c = { s with fb := (s.spanWrite L n v).fb, last := c, rsp := s.rsp ++ [⟨c, 0⟩] } := by
  rw [State.spanWrite_onlyFb]
  rfl

/-! ## The command -/

theorem exec_span_zero (s : State) (x y value : Half) : exec (.span x y 0 value) s = .next (s.done .ok) := rfl

theorem exec_span_of_inside {s : State} {x y : Half} {len : Word} (hn : 0 < len.toNat)
    (hlast : s.fmt.lastByte (s.linIndex x y) len.toNat < s.cfg.fbLen) (value : Half) :
    exec (.span x y len value) s =
      .next ((s.spanWrite (s.linIndex x y) len.toNat (s.fmt.trunc value)).done .ok) :=
  (if_neg hn.ne').trans (State.whenInside_next.mpr ⟨hlast, rfl⟩)

/-- Settles O43, by the bytes of `spanWrite` in each kind of format and its frame. -/
theorem spanEffect : Obligations.SpanEffect := by
  unfold Obligations.SpanEffect
  refine ⟨fun d => decode_of_op (i := .span d.x d.y d.w3 d.value), ?_⟩
  intro s x y value len L0 n b v
  refine ⟨?_, fun hn hlast => ⟨_, exec_span_of_inside hn hlast value, s.spanWrite_done_eq _ _ _ _, ?_, ?_, ?_, ?_⟩⟩
  · rintro rfl
    exact exec_span_zero s x y value
  · exact fun hb B hlo hhi => State.fbByte_spanWrite_of_subByte hb v hlo hhi
  · exact fun h L hlo hhi => State.fbByte_spanWrite_indexed8 h v hlo hhi
  · intro h L hlo hhi
    have hlow := State.fbByte_spanWrite_rgb565 h (L0 := L0) (n := n) (a := 2 * L) v (by omega) (by omega)
    have hhigh := State.fbByte_spanWrite_rgb565 h (L0 := L0) (n := n) (a := 2 * L + 1) v (by omega) (by omega)
    rw [show 2 * L % 2 = 0 by omega] at hlow
    rw [show (2 * L + 1) % 2 = 1 by omega] at hhigh
    exact ⟨hlow, hhigh⟩
  · exact fun a ha => s.fbByte_spanWrite_outside hn v ha

end Sys2Proof.Machine
end

section
/-! Where a tile keeps its pixels, and tiles that are skipped (`43_blit.md` R162, R163). -/

namespace Sys2Proof

/-- The code of a format is none of the reserved ones (R84). -/
theorem Format.code_toNat_le (f : Format) : f.code.toNat ≤ 4 := by cases f <;> decide

end Sys2Proof

namespace Sys2Proof.Machine

/-! ## Tiles of another format -/

theorem State.blit_of_mismatch {s : State} {tfmt : Byte} (h : tfmt ≠ s.fmt.code) (x y : Half) (side : Byte)
    (ptr : Word) (g : Stage) : s.blit x y side tfmt ptr g = .next (s.done .skipFormat) := if_neg h

/-- Settles O46: a blit compares the format codes before anything else. -/
theorem formatMismatchSkips : Obligations.FormatMismatchSkips := by
  unfold Obligations.FormatMismatchSkips
  refine fun s x y side tfmt ptr pat repl => ⟨?_, fun h => ⟨s.blit_of_mismatch h .., s.blit_of_mismatch h ..⟩⟩
  rintro h rfl
  exact absurd s.fmt.code_toNat_le (Nat.not_le.mpr h)

/-! ## The bytes of a tile row -/

theorem State.tileRead_mod (s : State) (a : Nat) : s.tileRead (a % 2 ^ 32) = s.tileRead a := by
  rw [State.tileRead, State.tileRead, Nat.mod_mod]

/-- `TileByte` with the address written out (R162). -/
theorem State.tileByte_eq_tileRead (s : State) (T : Tile) (j k : Nat) :
    s.tileByte T j k = s.tileRead ((T.ptr.toNat + j * ((T.side * T.fmt.bpp + 7) / 8) + k) % 2 ^ 32) :=
  (s.tileRead_mod _).symm

/-! ## The pixels of a tile row stand as in a frame buffer -/

/-- A machine in the tile's format whose frame buffer begins with the first n bytes of tile row j. -/
def State.tileRowBuffer (s : State) (T : Tile) (j n : Nat) : State :=
  ({ s with fmt := T.fmt } : State).writeRange 0 n (s.tileByte T j)

@[simp] theorem State.tileRowBuffer_fmt (s : State) (T : Tile) (j n : Nat) : (s.tileRowBuffer T j n).fmt = T.fmt := rfl

theorem State.fbByte_tileRowBuffer (s : State) (T : Tile) (j : Nat) {n k : Nat} (h : k < n) :
    (s.tileRowBuffer T j n).fbByte k = s.tileByte T j k :=
  (State.fbByte_writeRange ..).trans (if_pos (by omega))

theorem State.tilePix_of_subByte (s : State) {T : Tile} (hb : T.fmt.bpp < 8) (i j : Nat) :
    s.tilePix T i j = ((s.tileByte T j (i / T.fmt.ppb)).setWidth 16 >>> (8 - T.fmt.bpp - i % T.fmt.ppb * T.fmt.bpp)) &&&
      T.fmt.pixMask := by
  unfold State.tilePix
  cases h : T.fmt with
  | grey1 | grey2 | grey4 => rfl
  | indexed8 | rgb565 => simp [h, Format.bpp] at hb

/-- `TilePix` is `PixRead` on the row's bytes (R56, R162); no pixel i lies beyond byte 2i + 1. -/
theorem State.tilePix_eq_pixRead (s : State) (T : Tile) (i j : Nat) :
    s.tilePix T i j = (s.tileRowBuffer T j (2 * i + 2)).pixRead i := by
  by_cases hb : T.fmt.bpp < 8
  · have hplace : i / T.fmt.ppb = T.fmt.pixByte i ∧
        8 - T.fmt.bpp - i % T.fmt.ppb * T.fmt.bpp = T.fmt.pixShift i ∧ T.fmt.pixByte i < 2 * i + 2 := by
      cases h : T.fmt <;>
        simp only [h, Format.bpp, Format.ppb, Format.pixByte, Format.pixShift, Format.pixOffset] at hb ⊢ <;> omega
    obtain ⟨hbyte, hshift, hin⟩ := hplace
    rw [s.tilePix_of_subByte hb, State.pixRead_of_subByte (s.tileRowBuffer_fmt ..) hb, ← Format.field_eq_extractLsb',
      hbyte, hshift, s.fbByte_tileRowBuffer T j hin]
  · rcases Format.eq_of_byte hb with h | h
    · rw [State.pixRead_indexed8 h, s.fbByte_tileRowBuffer T j (by omega), State.tilePix, h]
    · rw [State.pixRead_rgb565 h, s.fbByte_tileRowBuffer T j (by omega), s.fbByte_tileRowBuffer T j (by omega),
        State.tilePix, h]

/-- Settles O59: the layout of a tile row is the layout of the frame buffer, with the row's bytes. -/
theorem tilePixelLayout : Obligations.TilePixelLayout := by
  unfold Obligations.TilePixelLayout
  intro s T i j byte
  have hbyte : ∀ k, k < 2 * i + 2 → (s.tileRowBuffer T j (2 * i + 2)).fbByte k = byte k := fun k hk =>
    (s.fbByte_tileRowBuffer T j hk).trans (s.tileByte_eq_tileRead T j k)
  refine ⟨s.tileByte_eq_tileRead T j, ?_⟩
  rw [s.tilePix_eq_pixRead, pixelLayout, hbyte (i / 8) (by omega), hbyte (i / 4) (by omega), hbyte (i / 2) (by omega),
    hbyte i (by omega), hbyte (2 * i) (by omega), hbyte (2 * i + 1) (by omega)]
  rfl

end Sys2Proof.Machine
end

section
/-! The source bytes of a row and the alignment mux (`43_blit.md` R165, R166). -/

namespace Sys2Proof.Machine

/-- Two adjacent bytes shifted by o bits, bit by bit. -/
theorem funnelShift_getLsbD (prev cur : Byte) (o : Nat) {i : Nat} (hi : i < 8) :
    ((prev <<< (8 - o)) ||| (cur >>> o)).getLsbD i =
      if i < 8 - o then cur.getLsbD (i + o) else prev.getLsbD (i - (8 - o)) := by
  rw [BitVec.getLsbD_or, BitVec.getLsbD_shiftLeft, BitVec.getLsbD_ushiftRight, Nat.add_comm o i]
  split <;> rename_i h
  · simp [h]
  · simp [h, hi, BitVec.getLsbD_of_ge cur (i + o) (by omega)]

theorem State.srcByte_identity (s : State) {T : Tile} (j : Nat) {k : Nat} (h : k < T.pitch) :
    s.srcByte T .identity j k = s.tileByte T j k := if_pos h

theorem State.srcByte_of_beyond (s : State) {T : Tile} (g : Stage) (j : Nat) {k : Nat} (h : T.pitch ≤ k) :
    s.srcByte T g j k = 0 := if_neg (Nat.not_lt.mpr h)

theorem State.alignMux_getLsbD (s : State) (T : Tile) (g : Stage) (j d o : Nat) {i : Nat} (hi : i < 8) :
    (s.alignMux T g j d o).getLsbD i =
      if i < 8 - o then (s.srcByte T g j d).getLsbD (i + o)
      else (decide (d ≠ 0) && (s.srcByte T g j (d - 1)).getLsbD (i - (8 - o))) := by
  refine (funnelShift_getLsbD _ _ o hi).trans ?_
  by_cases hd : d = 0 <;> simp [hd]

/-- Settles O51, bit by bit; with o = 0 every bit comes from the current byte. -/
theorem alignMuxIsFunnelShift : Obligations.AlignMuxIsFunnelShift := by
  unfold Obligations.AlignMuxIsFunnelShift
  refine fun s T g j d o _ => ⟨fun i hi => s.alignMux_getLsbD T g j d o hi, ?_, s.srcByte_of_beyond g j le_rfl⟩
  exact BitVec.eq_of_getLsbD_eq fun i hi => (s.alignMux_getLsbD T g j d 0 hi).trans (if_pos hi)

end Sys2Proof.Machine
end

section
/-! One row of a blit, bit by bit (`43_blit.md` R165, R168, R172). -/

namespace Sys2Proof.Machine

/-- Bit k of a tile row after the stage, counted as the buffer's bits are: bit 0 is bit 7 of the row's first byte. -/
def State.rowBit (s : State) (T : Tile) (g : Stage) (j k : Nat) : Bool := (s.srcByte T g j (k / 8)).getLsbD (7 - k % 8)

/-- Behind the alignment mux, what stands at bit address A of a row that starts at a0 is bit `A - a0` of the row. -/
theorem State.alignMux_rowBit (s : State) (T : Tile) (g : Stage) (j : Nat) {a0 A : Nat} (h : a0 ≤ A) :
    (s.alignMux T g j (A / 8 - a0 / 8) (a0 % 8)).getLsbD (7 - A % 8) = s.rowBit T g j (A - a0) := by
  rw [s.alignMux_getLsbD T g j _ _ (by omega), State.rowBit]
  split
  · rw [show (A - a0) / 8 = A / 8 - a0 / 8 by omega, show 7 - (A - a0) % 8 = 7 - A % 8 + a0 % 8 by omega]
  · rw [show (A - a0) / 8 = A / 8 - a0 / 8 - 1 by omega, show 7 - (A - a0) % 8 = 7 - A % 8 - (8 - a0 % 8) by omega,
      decide_eq_true (by omega), Bool.true_and]

/-- A row of a blit puts the row's bits at the bit addresses of its pixels and at no others. -/
theorem State.fbBit_blitRow (s : State) {T : Tile} (hT : 0 < T.side) (g : Stage) (px py j A : Nat) :
    (s.blitRow T g px py j).fbBit A =
      if s.cfg.lin px (py + j) * T.fmt.bpp ≤ A ∧ A < (s.cfg.lin px (py + j) + T.side) * T.fmt.bpp then
        s.rowBit T g j (A - s.cfg.lin px (py + j) * T.fmt.bpp) else s.fbBit A := by
  unfold State.blitRow
  generalize s.cfg.lin px (py + j) = L0
  have hpos : 0 < T.side * T.fmt.bpp := Nat.mul_pos hT T.fmt.bpp_pos
  rw [Nat.add_mul]
  by_cases hb : T.fmt.bpp < 8
  · simp only [Nat.not_le.mpr hb, if_false]
    rw [s.fbBit_maskedRun (by omega) _ (by omega)]
    split
    · exact s.alignMux_rowBit T g j (by omega)
    · rfl
  · have hwhole : ∀ n, n * T.fmt.bpp = 8 * (n * T.fmt.bpp / 8) := fun n => by
      rcases Format.eq_of_byte hb with h | h <;> simp only [h, Format.bpp] <;> omega
    have hstart := hwhole L0
    have hlength := hwhole T.side
    simp only [Nat.le_of_not_lt hb, if_true]
    generalize L0 * T.fmt.bpp = a0 at hstart ⊢
    generalize T.side * T.fmt.bpp = w at hlength ⊢
    rw [State.fbBit_writeRange]
    refine if_ctx_congr (by omega) (fun _ => ?_) fun _ => rfl
    rw [State.rowBit, show (A - a0) / 8 = A / 8 - a0 / 8 by omega, show (A - a0) % 8 = A % 8 by omega]

/-! ## A row of an 8-pixel GREY1 glyph -/

theorem State.srcByte_glyph (s : State) (ptr : Word) (j : Nat) :
    s.srcByte ⟨.grey1, 8, ptr⟩ .identity j 0 = s.tileRead ((ptr.toNat + j) % 2 ^ 32) := by
  have hpitch : Tile.pitch ⟨.grey1, 8, ptr⟩ = 1 := by simp only [Tile.pitch, Format.bpp]
  rw [s.srcByte_identity j (by omega), State.tileByte, hpitch, Nat.mul_one, Nat.add_zero, s.tileRead_mod]

/-- The eight bits of the row's one byte stand at the bit addresses of its eight pixels. -/
theorem State.fbByte_glyphRow_getLsbD (s : State) (ptr : Word) (px py j a : Nat) {i : Nat} (hi : i < 8) :
    ((s.blitRow ⟨.grey1, 8, ptr⟩ .identity px py j).fbByte a).getLsbD i =
      if s.cfg.lin px (py + j) ≤ 8 * a + (7 - i) ∧ 8 * a + (7 - i) < s.cfg.lin px (py + j) + 8 then
        (s.tileRead ((ptr.toNat + j) % 2 ^ 32)).getLsbD (7 - (8 * a + (7 - i) - s.cfg.lin px (py + j)))
      else (s.fbByte a).getLsbD i := by
  rw [State.fbByte_getLsbD _ _ hi, s.fbByte_getLsbD a hi, s.fbBit_blitRow (Nat.succ_pos 7)]
  simp only [Format.bpp, Nat.mul_one]
  refine if_ctx_congr Iff.rfl (fun h => ?_) fun _ => rfl
  rw [State.rowBit, Nat.div_eq_of_lt (by omega), Nat.mod_eq_of_lt (by omega), s.srcByte_glyph]

/-- Settles O53: the bits of the glyph row by their addresses, in the bytes they can fall in. -/
theorem glyphRowCases : Obligations.GlyphRowCases := by
  unfold Obligations.GlyphRowCases
  intro s ptr px py j T t L0 o S
  have hbit : ∀ a i, i < 8 → (t.fbByte a).getLsbD i =
      if L0 ≤ 8 * a + (7 - i) ∧ 8 * a + (7 - i) < L0 + 8 then S.getLsbD (7 - (8 * a + (7 - i) - L0))
      else (s.fbByte a).getLsbD i := fun a i hi => s.fbByte_glyphRow_getLsbD ptr px py j a hi
  have hout : ∀ a, L0 + 8 ≤ 8 * a ∨ 8 * a + 8 ≤ L0 → t.fbByte a = s.fbByte a := fun a ha =>
    BitVec.eq_of_getLsbD_eq fun i hi => (hbit a i hi).trans (if_neg (by omega))
  refine ⟨fun ho => ⟨?aligned, hout _ (by omega)⟩, fun ho => ⟨?high, ?low⟩, fun a h0 h1 => hout a (by omega)⟩
  case aligned =>
    refine BitVec.eq_of_getLsbD_eq fun i hi => ?_
    rw [hbit _ i hi, if_pos (by omega)]
    congr 1
    omega
  case high =>
    refine BitVec.eq_of_getLsbD_eq fun i hi => ?_
    rw [hbit _ i hi, BitVec.getLsbD_or, BitVec.getLsbD_and, BitVec.getLsbD_not, BitVec.getLsbD_ushiftRight,
      BitVec.getLsbD_ushiftRight, byte_ff_getLsbD, decide_eq_true hi, Bool.true_and]
    split
    · rw [decide_eq_true (by omega), Bool.not_true, Bool.and_false, Bool.false_or]
      congr 1
      omega
    · rw [decide_eq_false (by omega), Bool.not_false, Bool.and_true, BitVec.getLsbD_of_ge S _ (by omega),
        Bool.or_false]
  case low =>
    refine BitVec.eq_of_getLsbD_eq fun i hi => ?_
    rw [hbit _ i hi, BitVec.getLsbD_or, BitVec.getLsbD_and, BitVec.getLsbD_shiftLeft,
      BitVec.getLsbD_ushiftRight, byte_ff_getLsbD, decide_eq_true hi, Bool.true_and]
    split
    · rw [decide_eq_false (by omega), Bool.and_false, Bool.false_or, decide_eq_false (by omega), Bool.not_false,
        Bool.true_and]
      congr 1
      omega
    · rw [decide_eq_true (by omega), Bool.and_true, decide_eq_true (by omega), Bool.not_true, Bool.false_and,
        Bool.or_false]

end Sys2Proof.Machine
end

section
/-! The source bytes of a blit hold the pixels behind the substitution stage (`43_blit.md` R161, R173). -/

namespace Sys2Proof

/-- Field m of a byte of a sub-byte format, zero-extended to 16 bits (R50). -/
def Format.field (f : Format) (raw : Byte) (m : Nat) : Half :=
  (raw.setWidth 16 >>> (8 - f.bpp - m * f.bpp)) &&& f.pixMask

theorem Format.trunc_field (f : Format) (raw : Byte) (m : Nat) : f.trunc (f.field raw m) = f.field raw m :=
  f.trunc_trunc _

/-- Where bit n of pixel i of a sub-byte row stands: in byte `i / ppb`, at bit n of field `i % ppb`. -/
theorem Format.fieldBit_place {f : Format} (hb : f.bpp < 8) (i : Nat) {n : Nat} (hn : n < f.bpp) :
    (i * f.bpp + f.fieldBit n) / 8 = i / f.ppb ∧
    7 - (i * f.bpp + f.fieldBit n) % 8 = 8 - f.bpp - i % f.ppb * f.bpp + n ∧ i % f.ppb < f.ppb := by
  cases f <;> simp only [Format.bpp, Format.ppb, Format.fieldBit] at hb hn ⊢ <;> omega

theorem Format.fieldBit_div_lt {f : Format} {i n m : Nat} (hi : i < m) (hn : n < f.bpp) :
    (i * f.bpp + f.fieldBit n) / 8 < (m * f.bpp + 7) / 8 := by
  have hlt := f.fieldBit_lt hn
  have hle : (i + 1) * f.bpp ≤ m * f.bpp := Nat.mul_le_mul_right _ hi
  rw [Nat.add_one_mul] at hle
  omega

/-- The bits of a disjunction over a list. -/
theorem foldl_or_getLsbD {w : Nat} (h : Nat → BitVec w) (xs : List Nat) (z : BitVec w) (k : Nat) :
    (xs.foldl (fun out m => out ||| h m) z).getLsbD k = (z.getLsbD k || xs.any fun m => (h m).getLsbD k) := by
  induction xs generalizing z with
  | nil => simp
  | cons x xs ih => rw [List.foldl_cons, ih, BitVec.getLsbD_or, List.any_cons, Bool.or_assoc]

end Sys2Proof

namespace Sys2Proof.Machine

/-! ## Stages that keep to the width of the pixels -/

/-- A stage that turns values of the format's width into values of that width. -/
def Stage.Fits (g : Stage) (f : Format) : Prop := ∀ q, f.trunc q = q → f.trunc (g.apply q) = g.apply q

theorem Stage.fits_identity (f : Format) : Stage.identity.Fits f := fun _ h => h

theorem Stage.fits_subst_trunc (f : Format) (pat repl : Half) : (Stage.subst pat (f.trunc repl)).Fits f := by
  intro q hq
  simp only [Stage.apply]
  split
  · exact f.trunc_trunc repl
  · exact hq

theorem Stage.Fits.getLsbD_apply {g : Stage} {f : Format} (hg : g.Fits f) {q : Half} (hq : f.trunc q = q) {n : Nat}
    (hn : f.bpp ≤ n) : (g.apply q).getLsbD n = false := by
  rw [← hg q hq, Format.trunc_getLsbD, decide_eq_false (Nat.not_lt.mpr hn), Bool.and_false]

theorem State.trunc_tilePix (s : State) (T : Tile) (i j : Nat) : T.fmt.trunc (s.tilePix T i j) = s.tilePix T i j := by
  rw [s.tilePix_eq_pixRead]
  exact State.trunc_pixRead ..

/-! ## The substitution stage on one byte of a sub-byte format -/

theorem Stage.onFields_getLsbD (g : Stage) (f : Format) (raw : Byte) (k : Nat) :
    (g.onFields f raw).getLsbD k = (List.range f.ppb).any fun m =>
      ((g.apply (f.field raw m)).setWidth 8 <<< (8 - f.bpp - m * f.bpp)).getLsbD k :=
  (foldl_or_getLsbD _ _ _ k).trans (by rw [BitVec.ofNat_eq_ofNat, BitVec.getLsbD_zero, Bool.false_or]; rfl)

/-- Each field of the byte is replaced on its own, because no other field reaches its bits. -/
theorem Stage.onFields_field {g : Stage} {f : Format} (hb : f.bpp < 8) (hg : g.Fits f) (raw : Byte) {m n : Nat}
    (hm : m < f.ppb) (hn : n < f.bpp) :
    (g.onFields f raw).getLsbD (8 - f.bpp - m * f.bpp + n) = (g.apply (f.field raw m)).getLsbD n := by
  have hin : 8 - f.bpp - m * f.bpp + n < 8 := by omega
  have hapart : ∀ m', m' < f.ppb → 8 - f.bpp - m' * f.bpp ≤ 8 - f.bpp - m * f.bpp + n →
      8 - f.bpp - m * f.bpp + n - (8 - f.bpp - m' * f.bpp) < f.bpp → m' = m := by
    cases f <;> simp only [Format.bpp, Format.ppb] at hb hm hn ⊢ <;> omega
  rw [Stage.onFields_getLsbD, Bool.eq_iff_iff, List.any_eq_true]
  simp only [List.mem_range, BitVec.getLsbD_shiftLeft, BitVec.getLsbD_setWidth, Bool.and_eq_true, Bool.not_eq_true',
    decide_eq_true_eq, decide_eq_false_iff_not, Nat.not_lt]
  constructor
  · rintro ⟨m', hm', ⟨-, hle⟩, -, hbit⟩
    have hwidth : 8 - f.bpp - m * f.bpp + n - (8 - f.bpp - m' * f.bpp) < f.bpp := by
      by_contra hge
      rw [hg.getLsbD_apply (f.trunc_field raw m') (Nat.le_of_not_lt hge)] at hbit
      cases hbit
    cases hapart m' hm' hle hwidth
    rwa [Nat.add_sub_cancel_left] at hbit
  · intro hbit
    refine ⟨m, hm, ⟨hin, Nat.le_add_right ..⟩, ?_⟩
    rw [Nat.add_sub_cancel_left]
    exact ⟨by omega, hbit⟩

/-! ## `SrcByte` after a substitution, in each kind of format (R173) -/

section
variable (s : State) {T : Tile} (p r : Half) (j : Nat) {k : Nat} (hk : k < T.pitch)
include hk

theorem State.srcByte_subst_of_subByte (hb : T.fmt.bpp < 8) :
    s.srcByte T (.subst p r) j k = Stage.onFields (.subst p r) T.fmt (s.tileByte T j k) := by
  unfold State.srcByte
  rw [if_pos hk]
  cases h : T.fmt with
  | grey1 | grey2 | grey4 => rfl
  | indexed8 | rgb565 => simp [h, Format.bpp] at hb

theorem State.srcByte_subst_indexed8 (h : T.fmt = .indexed8) :
    s.srcByte T (.subst p r) j k = (Stage.apply (.subst p r) (s.tilePix T k j)).setWidth 8 := by
  unfold State.srcByte State.tilePix
  rw [if_pos hk, h]

theorem State.srcByte_subst_rgb565 (h : T.fmt = .rgb565) :
    s.srcByte T (.subst p r) j k = (Stage.apply (.subst p r) (s.tilePix T (k / 2) j)).extractLsb' (8 * (k % 2)) 8 := by
  rw [← Format.fillByte_rgb565]
  unfold State.srcByte
  rw [if_pos hk, h]
  rfl

end

/-! ## The bits of a row are the bits of its pixels -/

/-- Bit n of a tile pixel stands at its place among the row's bits (R50, R162). -/
theorem State.tilePix_fieldBit (s : State) (T : Tile) (i j : Nat) {n : Nat} (hn : n < T.fmt.bpp) :
    (s.tilePix T i j).getLsbD n =
      (s.tileByte T j ((i * T.fmt.bpp + T.fmt.fieldBit n) / 8)).getLsbD
        (7 - (i * T.fmt.bpp + T.fmt.fieldBit n) % 8) := by
  have hin : (i * T.fmt.bpp + T.fmt.fieldBit n) / 8 < 2 * i + 2 := by
    cases h : T.fmt <;> simp only [h, Format.bpp, Format.fieldBit] at hn ⊢ <;> omega
  rw [s.tilePix_eq_pixRead, State.pixRead_fieldBit _ _ hn, s.tileRowBuffer_fmt, State.fbBit,
    s.fbByte_tileRowBuffer T j hin]

/-- Behind the stage, bit n of pixel i stands where the row's bits have it (R161, R173). -/
theorem State.rowBit_eq_apply (s : State) {T : Tile} {g : Stage} (hg : g.Fits T.fmt) {i : Nat} (hi : i < T.side)
    (j : Nat) {n : Nat} (hn : n < T.fmt.bpp) :
    s.rowBit T g j (i * T.fmt.bpp + T.fmt.fieldBit n) = (g.apply (s.tilePix T i j)).getLsbD n := by
  have hk : (i * T.fmt.bpp + T.fmt.fieldBit n) / 8 < T.pitch := Format.fieldBit_div_lt hi hn
  unfold State.rowBit
  cases g with
  | identity =>
    rw [s.srcByte_identity j hk]
    exact (s.tilePix_fieldBit T i j hn).symm
  | subst p r =>
    by_cases hb : T.fmt.bpp < 8
    · obtain ⟨hbyte, hbit, hm⟩ := Format.fieldBit_place hb i hn
      rw [s.srcByte_subst_of_subByte p r j hk hb, hbit, Stage.onFields_field hb hg _ hm hn, hbyte,
        s.tilePix_of_subByte hb]
      rfl
    · rcases Format.eq_of_byte hb with h | h
      · rw [s.srcByte_subst_indexed8 p r j hk h]
        simp only [h, Format.bpp, Format.fieldBit] at hn ⊢
        rw [show (i * 8 + (8 - 1 - n)) / 8 = i by omega, show 7 - (i * 8 + (8 - 1 - n)) % 8 = n by omega,
          BitVec.getLsbD_setWidth, decide_eq_true hn, Bool.true_and]
      · rw [s.srcByte_subst_rgb565 p r j hk h]
        simp only [h, Format.bpp, Format.fieldBit] at hn ⊢
        rw [show (i * 16 + (8 * (n / 8) + (7 - n % 8))) / 8 / 2 = i by omega, BitVec.getLsbD_extractLsb',
          decide_eq_true (by omega), Bool.true_and]
        congr 1
        omega

end Sys2Proof.Machine
end

section
/-! BLIT and BLITR draw the tile (`43_blit.md` R160, R161). -/

namespace Sys2Proof.Machine

/-! ## One row on pixels and bytes -/

@[simp] theorem State.blitRow_fmt (s : State) (T : Tile) (g : Stage) (px py j : Nat) :
    (s.blitRow T g px py j).fmt = s.fmt := by rw [State.blitRow_onlyFb]

section
variable (s : State) {T : Tile} (hf : T.fmt = s.fmt) {g : Stage} (px py : Nat) {j : Nat}
include hf

/-- A row of a blit leaves every bit that is none of its pixels'. -/
theorem State.fbBit_blitRow_outside (hT : 0 < T.side) (g : Stage) {A : Nat}
    (hA : ¬ (s.cfg.lin px (py + j) * s.fmt.bpp ≤ A ∧ A < (s.cfg.lin px (py + j) + T.side) * s.fmt.bpp)) :
    (s.blitRow T g px py j).fbBit A = s.fbBit A := by
  rw [s.fbBit_blitRow hT, if_neg (hf ▸ hA)]

theorem State.pixRead_blitRow_inside (hg : g.Fits s.fmt) {i : Nat} (hi : i < T.side) :
    (s.blitRow T g px py j).pixRead (s.cfg.lin px (py + j) + i) = g.apply (s.tilePix T i j) := by
  refine BitVec.eq_of_getLsbD_eq fun n _ => ?_
  by_cases hn : n < s.fmt.bpp
  · have hlt := s.fmt.fieldBit_lt hn
    have hle : (i + 1) * s.fmt.bpp ≤ T.side * s.fmt.bpp := Nat.mul_le_mul_right _ hi
    rw [Nat.add_one_mul] at hle
    rw [State.pixRead_fieldBit _ _ (by simpa using hn), State.blitRow_fmt, s.fbBit_blitRow (by omega), hf, Nat.add_mul,
      Nat.add_mul, if_pos (by omega), Nat.add_assoc, Nat.add_sub_cancel_left, ← hf,
      s.rowBit_eq_apply (hf ▸ hg) hi j (hf ▸ hn)]
  · have hge := Nat.le_of_not_lt hn
    rw [State.pixRead_getLsbD_of_ge _ _ (by simpa using hge), hg.getLsbD_apply (hf ▸ s.trunc_tilePix T i j) hge]

theorem State.pixRead_blitRow_outside (hT : 0 < T.side) (g : Stage) {L : Nat} (hL : ¬ s.inTileRow T px py j L) :
    (s.blitRow T g px py j).pixRead L = s.pixRead L :=
  State.pixRead_frame (s.blitRow_fmt ..) (fun _ => s.fbBit_blitRow_outside hf px py hT g) hL

theorem State.fbByte_blitRow_outside (hT : 0 < T.side) (g : Stage) {a : Nat}
    (ha : ¬ s.inTileRowBytes T px py j a) : (s.blitRow T g px py j).fbByte a = s.fbByte a :=
  State.fbByte_frame hT (fun _ => s.fbBit_blitRow_outside hf px py hT g) (by rwa [State.inTileRowBytes, hf] at ha)

end

/-! ## All rows -/

section
variable {s : State} {T : Tile} (hf : T.fmt = s.fmt) (hT : 0 < T.side) {g : Stage} (px py : Nat) (n : Nat)
include hf hT

theorem State.pixRead_blitRows_outside {L : Nat} (hL : ∀ j, j < n → ¬ s.inTileRow T px py j L) :
    (s.blitRows T g px py n).pixRead L = s.pixRead L := by
  induction n with
  | zero => rfl
  | succ n ih =>
    have hrow : ¬ (s.blitRows T g px py n).inTileRow T px py n L := by
      simpa [State.inTileRow] using hL n (Nat.lt_succ_self n)
    rw [State.blitRows, State.pixRead_blitRow_outside _ (by simpa using hf) px py hT g hrow]
    exact ih fun j hj => hL j (by omega)

theorem State.fbByte_blitRows_outside {a : Nat} (ha : ∀ j, j < n → ¬ s.inTileRowBytes T px py j a) :
    (s.blitRows T g px py n).fbByte a = s.fbByte a := by
  induction n with
  | zero => rfl
  | succ n ih =>
    have hrow : ¬ (s.blitRows T g px py n).inTileRowBytes T px py n a := by
      simpa [State.inTileRowBytes] using ha n (Nat.lt_succ_self n)
    rw [State.blitRows, State.fbByte_blitRow_outside _ (by simpa using hf) px py hT g hrow]
    exact ih fun j hj => ha j (by omega)

/-- A pixel of row j stands as it was drawn as long as no later row is drawn over it. -/
theorem State.pixRead_blitRows_inside (hg : g.Fits s.fmt) {i j : Nat} (hi : i < T.side) (hj : j < n)
    (hlater : ∀ k, j < k → k < n → ¬ s.inTileRow T px py k (s.cfg.lin px (py + j) + i)) :
    (s.blitRows T g px py n).pixRead (s.cfg.lin px (py + j) + i) = g.apply (s.tilePix T i j) := by
  induction n with
  | zero => omega
  | succ n ih =>
    have hf' : T.fmt = (s.blitRows T g px py n).fmt := by simpa using hf
    rw [State.blitRows]
    rcases Nat.lt_or_eq_of_le (Nat.le_of_lt_succ hj) with hlt | rfl
    · have hrow : ¬ (s.blitRows T g px py n).inTileRow T px py n (s.cfg.lin px (py + j) + i) := by
        simpa [State.inTileRow] using hlater n hlt (Nat.lt_succ_self n)
      rw [State.pixRead_blitRow_outside _ hf' px py hT g hrow]
      exact ih hlt fun k hk hkn => hlater k hk (by omega)
    · have hdrawn := State.pixRead_blitRow_inside _ hf' (g := g) px py (j := j) (by simpa using hg) hi
      rwa [State.blitRows_cfg, State.tilePix_congr (State.blitRows_tile ..)] at hdrawn

theorem State.drawsTile_blitRows (hg : g.Fits s.fmt) (c : Code) :
    s.drawsTile ((s.blitRows T g px py T.side).done c) T g.apply px py := by
  simp only [State.drawsTile, State.pixRead_done, State.fbByte_done]
  exact ⟨fun i j hi hj => State.pixRead_blitRows_inside hf hT px py _ hg hi hj,
    fun L => State.pixRead_blitRows_outside hf hT px py _, fun a => State.fbByte_blitRows_outside hf hT px py _⟩

end

/-! ## The commands -/

/-- Completed rows change the buffer, LAST and the responses alone. -/
theorem State.blitRows_done_eq (s : State) (T : Tile) (g : Stage) (px py n : Nat) (c : Code) :
    (s.blitRows T g px py n).done c =
      { s with fb := (s.blitRows T g px py n).fb, last := c, rsp := s.rsp ++ [⟨c, 0⟩] } := by
  rw [State.blitRows_onlyFb]
  rfl

theorem State.blit_of_empty (s : State) (x y : Half) (ptr : Word) (g : Stage) :
    s.blit x y 0 s.fmt.code ptr g = .next (s.done .ok) := by
  simp [State.blit]

/-- A blit of a tile with rows, in the active format and inside the buffer, draws the tile through its stage. -/
theorem State.blit_draws {s : State} {x y : Half} {side : Byte} {ptr : Word} {g : Stage} (hg : g.Fits s.fmt)
    (hside : 0 < side.toNat)
    (hlast : s.blitLastByte ⟨s.fmt, side.toNat, ptr⟩ (s.px x) (s.py y) < s.cfg.fbLen) :
    ∃ t, s.blit x y side s.fmt.code ptr g = .next t ∧
      t = { s with fb := t.fb, last := .ok, rsp := s.rsp ++ [⟨.ok, 0⟩] } ∧
      s.drawsTile t ⟨s.fmt, side.toNat, ptr⟩ g.apply (s.px x) (s.py y) := by
  refine ⟨_, ?_, s.blitRows_done_eq .., State.drawsTile_blitRows rfl hside _ _ hg .ok⟩
  exact (if_pos rfl).trans ((if_neg hside.ne').trans (State.whenInside_next.mpr ⟨hlast, rfl⟩))

/-- Settles O47: `State.blit_draws` with the stage that leaves every pixel. -/
theorem blitDrawsTile : Obligations.BlitDrawsTile := by
  unfold Obligations.BlitDrawsTile
  refine ⟨fun d => decode_of_op (i := .blit d.x d.y d.a8 d.b8 d.w2), fun s x y side ptr => ⟨?_, ?_, ?_⟩⟩
  · exact s.tileByte_eq_tileRead _
  · rintro rfl
    exact s.blit_of_empty x y ptr .identity
  · exact State.blit_draws (Stage.fits_identity _)

/-- Settles O48: `State.blit_draws` with the stage that substitutes in the active width. -/
theorem blitrDrawsSubstitutedTile : Obligations.BlitrDrawsSubstitutedTile := by
  unfold Obligations.BlitrDrawsSubstitutedTile
  refine ⟨fun d => decode_of_op (i := .blitr d.x d.y d.a8 d.b8 d.w2 d.pat d.repl),
    fun s x y side ptr pat repl => ⟨?_, ?_, ?_⟩⟩
  · exact s.tileByte_eq_tileRead _
  · rintro rfl
    exact s.blit_of_empty x y ptr _
  · exact State.blit_draws (Stage.fits_subst_trunc s.fmt _ repl)

end Sys2Proof.Machine
end

section
/-! The scrolls by what their count asks for, and the geometry of the GREY1 extent (`44_scroll.md` R192, R193). -/

namespace Sys2Proof

theorem Config.eight_mul_rby {c : Config} (hc : c.legal = true) : 8 * c.rby = c.physW := by
  obtain ⟨-, -, hw, -⟩ := c.legal_iff.mp hc
  exact Nat.mul_div_cancel' (Nat.dvd_of_mod_eq_zero hw)

theorem Config.eight_mul_pitch {c : Config} (hc : c.legal = true) : 8 * c.pitch = c.cellH * c.physW := by
  obtain ⟨-, -, hw, -⟩ := c.legal_iff.mp hc
  exact Nat.mul_div_cancel' ((Nat.dvd_of_mod_eq_zero hw).mul_left _)

theorem Config.eight_mul_extentBytes_one {c : Config} (hc : c.legal = true) :
    8 * c.extentBytes 1 = c.physH * c.physW := by
  have h := Config.extentBytes_mul_eight hc .grey1
  rwa [Format.bpp, Config.extentPix, Nat.mul_one, Nat.mul_comm, Nat.mul_comm c.physW] at h

theorem Config.totalRows_mul_cellH {c : Config} (hc : c.legal = true) : c.totalRows * c.cellH = c.physH := by
  obtain ⟨-, -, -, -, -, -, -, -, hh⟩ := c.legal_iff.mp hc
  exact Nat.div_mul_cancel (Nat.dvd_of_mod_eq_zero hh)

theorem Config.totalCols_mul_cellW {c : Config} (hc : c.legal = true) : c.totalCols * c.cellW = c.physW := by
  obtain ⟨-, -, -, -, -, -, hw, -⟩ := c.legal_iff.mp hc
  exact Nat.div_mul_cancel (Nat.dvd_of_mod_eq_zero hw)

/-- Whole cell rows end inside the extent, in every configuration. -/
theorem Config.rows_mul_pitch_le (c : Config) {m : Nat} (hm : m ≤ c.totalRows) : m * c.pitch ≤ c.extentBytes 1 := by
  have hrows : m * c.cellH ≤ c.physH := (Nat.mul_le_mul_right _ hm).trans (Nat.div_mul_le_self ..)
  calc m * c.pitch ≤ m * (c.cellH * c.physW) / 8 := Nat.mul_div_le_mul_div_assoc ..
    _ = m * c.cellH * c.physW / 8 := by rw [Nat.mul_assoc]
    _ ≤ c.physH * c.physW / 8 := Nat.div_le_div_right (Nat.mul_le_mul_right _ hrows)
    _ = c.extentBytes 1 := by rw [Config.extentBytes, Nat.mul_one, Nat.mul_comm]

theorem Config.lin_lt_mul_iff (c : Config) {x y m : Nat} (hx : x < c.physW) : c.lin x y < m * c.physW ↔ y < m := by
  have hy : c.lin x y / c.physW = y := by
    rw [Config.lin, Nat.mul_comm, Nat.mul_add_div (by omega), Nat.div_eq_of_lt hx, Nat.add_zero]
  rw [← Nat.div_lt_iff_lt_mul (by omega), hy]

/-- A bit address of the extent is a pixel of the screen (R55). -/
theorem Config.exists_lin {c : Config} {A : Nat} (hA : A < c.physH * c.physW) :
    ∃ x y, x < c.physW ∧ y < c.physH ∧ A = c.lin x y := by
  have hw : 0 < c.physW := Nat.pos_of_ne_zero fun h => by simp [h] at hA
  exact ⟨A % c.physW, A / c.physW, Nat.mod_lt _ hw, (Nat.div_lt_iff_lt_mul hw).mpr hA, (Nat.div_add_mod' ..).symm⟩

/-- Where a pixel of scanline y stands in GREY1 (R55, R193). -/
theorem Config.lin_eq_eight_mul_rby_add {c : Config} (hc : c.legal = true) (x y : Nat) :
    c.lin x y = 8 * (y * c.rby) + x := by
  rw [Config.lin, ← Config.eight_mul_rby hc, Nat.mul_left_comm]

end Sys2Proof

namespace Sys2Proof.Machine

section
variable {s : State} {count total : Nat} (f : Nat → Byte)

theorem State.scroll_skips (hf : s.fmt ≠ .grey1) : s.scroll count total f = .next (s.done .skipNotGrey1) := if_neg hf

theorem State.scroll_clears (hf : s.fmt = .grey1) (h : total ≤ count) : s.scroll count total f = exec .clear s :=
  (if_pos hf).trans (if_pos h)

theorem State.scroll_rewrites (hf : s.fmt = .grey1) (h : count < total) :
    s.scroll count total f = .next ((s.writeExtent f).done .ok) :=
  (if_pos hf).trans (if_neg (Nat.not_le.mpr h))

end

/-- Settles O54: the format gate comes before the count. -/
theorem scrollSkippedOutsideGrey1 : Obligations.ScrollSkippedOutsideGrey1 := by
  unfold Obligations.ScrollSkippedOutsideGrey1
  exact fun s n hf => ⟨State.scroll_skips _ hf, State.scroll_skips _ hf⟩

/-- A completed rewrite of the extent changes the buffer, LAST and the responses alone. -/
theorem State.writeExtent_done_eq (s : State) (f : Nat → Byte) (c : Code) :
    (s.writeExtent f).done c = { s with fb := (s.writeExtent f).fb, last := c, rsp := s.rsp ++ [⟨c, 0⟩] } := rfl

theorem State.fbByte_writeExtent_grey1 {s : State} (hf : s.fmt = .grey1) (f : Nat → Byte) (a : Nat) :
    (s.writeExtent f).fbByte a = if a < s.cfg.extentBytes 1 then f a else s.fbByte a := by
  rw [State.writeExtent, State.fbByte_writeRange, hf]
  exact if_congr (by simp [Format.bpp]) rfl rfl

end Sys2Proof.Machine
end

section
/-! The bits a scroll writes, pixel by pixel (`44_scroll.md` R190, R191). -/

namespace Sys2Proof

theorem Format.trunc_grey1 (v : Half) : Format.trunc .grey1 v = (BitVec.ofBool (v.getLsbD 0)).setWidth 16 := by
  refine BitVec.eq_of_getLsbD_eq fun i hi => ?_
  rw [Format.trunc_getLsbD, BitVec.getLsbD_setWidth, BitVec.getLsbD_ofBool, Format.bpp]
  by_cases h : i = 0 <;> simp [h]

end Sys2Proof

namespace Sys2Proof.Machine

/-- The bit at a bit address of a run of bytes, counted as `State.fbBit` counts the frame buffer's (R55). -/
def bitAt (f : Nat → Byte) (A : Nat) : Bool := (f (A / 8)).getLsbD (7 - A % 8)

/-- The bit of a background pixel in GREY1. -/
def State.backgroundBit (s : State) : Bool := s.cfg.bg.getLsbD 0

theorem State.backgroundByte_getLsbD (s : State) {i : Nat} (hi : i < 8) :
    s.backgroundByte.getLsbD i = s.backgroundBit := by
  rw [State.backgroundByte, Format.expand_getLsbD (by decide) (Format.trunc_toNat_lt ..) hi, Format.bpp, Nat.mod_one,
    Format.trunc_getLsbD, Format.bpp, decide_eq_true Nat.one_pos, Bool.and_true]
  rfl

theorem State.backgroundByte_eq (s : State) : s.backgroundByte = if s.cfg.bg.getLsbD 0 then 0xFF else 0x00 := by
  refine BitVec.eq_of_getLsbD_eq fun i hi => (s.backgroundByte_getLsbD hi).trans ?_
  rw [State.backgroundBit]
  cases s.cfg.bg.getLsbD 0
  · simp
  · exact ((byte_ff_getLsbD i).trans (decide_eq_true hi)).symm

theorem State.bitAt_backgroundByte (s : State) (A : Nat) : bitAt (fun _ => s.backgroundByte) A = s.backgroundBit :=
  s.backgroundByte_getLsbD (by omega)

theorem State.bitAt_rowScrolled {s : State} (hc : s.cfg.legal = true) (n : Nat) {x y : Nat} (hx : x < s.cfg.physW) :
    bitAt (s.rowScrolled n) (s.cfg.lin x y) =
      if y + n * s.cfg.cellH < s.cfg.physH then s.fbBit (s.cfg.lin x (y + n * s.cfg.cellH)) else s.backgroundBit := by
  have hpitch : ∀ m, 8 * (m * s.cfg.pitch) = m * s.cfg.cellH * s.cfg.physW := fun m => by
    rw [Nat.mul_left_comm, Config.eight_mul_pitch hc, Nat.mul_assoc]
  have hkept : s.cfg.lin x y / 8 < (s.cfg.totalRows - n) * s.cfg.pitch ↔ y + n * s.cfg.cellH < s.cfg.physH := by
    rw [Nat.div_lt_iff_lt_mul (by decide), Nat.mul_comm _ 8, hpitch, Config.lin_lt_mul_iff _ hx, Nat.sub_mul,
      Config.totalRows_mul_cellH hc, Nat.lt_sub_iff_add_lt]
  have hmoved : s.cfg.lin x (y + n * s.cfg.cellH) = s.cfg.lin x y + 8 * (n * s.cfg.pitch) := by
    rw [Config.lin, Config.lin, hpitch, Nat.add_mul, Nat.add_right_comm]
  rw [bitAt, State.rowScrolled]
  split <;> rename_i h
  · rw [if_pos (hkept.mp h), hmoved, State.fbBit, Nat.add_mul_div_left _ _ (by decide), Nat.add_mul_mod_self_left]
  · rw [if_neg (mt hkept.mpr h), s.backgroundByte_getLsbD (by omega)]

/-- A scanline and the background behind its end, as one sequence of bits. -/
theorem State.bitAt_lineByte {s : State} (hc : s.cfg.legal = true) (x y : Nat) :
    bitAt (s.lineByte (y * s.cfg.rby)) x = if x < s.cfg.physW then s.fbBit (s.cfg.lin x y) else s.backgroundBit := by
  have hw := Config.eight_mul_rby hc
  rw [bitAt, State.lineByte]
  split <;> rename_i h
  · rw [if_pos (by omega), Config.lin_eq_eight_mul_rby_add hc, State.fbBit, Nat.mul_add_div (by decide),
      Nat.mul_add_mod]
  · rw [if_neg (by omega), s.backgroundByte_getLsbD (by omega)]

/-- The column shifter is a funnel shifter over two bytes of the scanline, also when it shifts whole bytes. -/
theorem State.colScrolled_eq_funnelShift (s : State) (n y : Nat) {k : Nat} (hk : k < s.cfg.rby) :
    s.colScrolled n (y * s.cfg.rby + k) =
      (s.lineByte (y * s.cfg.rby) (k + n / 8) <<< (8 - (8 - n % 8))) |||
        (s.lineByte (y * s.cfg.rby) (k + n / 8 + 1) >>> (8 - n % 8)) := by
  have hline : (y * s.cfg.rby + k) / s.cfg.rby = y := by
    rw [Nat.mul_comm, Nat.mul_add_div (by omega), Nat.div_eq_of_lt hk, Nat.add_zero]
  have hcol : (y * s.cfg.rby + k) % s.cfg.rby = k := by rw [Nat.mul_comm, Nat.mul_add_mod, Nat.mod_eq_of_lt hk]
  rw [show 8 - (8 - n % 8) = n % 8 by omega]
  simp only [State.colScrolled, hline, hcol]
  split <;> rename_i h
  · have hout : s.lineByte (y * s.cfg.rby) (k + n / 8 + 1) >>> 8 = 0#8 := BitVec.ushiftRight_eq_zero (by decide)
    rw [h, hout, BitVec.shiftLeft_zero, BitVec.or_zero]
  · rfl

theorem State.bitAt_colScrolled {s : State} (hc : s.cfg.legal = true) (n : Nat) {x : Nat} (y : Nat)
    (hx : x < s.cfg.physW) :
    bitAt (s.colScrolled n) (s.cfg.lin x y) =
      if x + n < s.cfg.physW then s.fbBit (s.cfg.lin (x + n) y) else s.backgroundBit := by
  have hw := Config.eight_mul_rby hc
  rw [← State.bitAt_lineByte hc, Config.lin_eq_eight_mul_rby_add hc, bitAt, bitAt, Nat.mul_add_div (by decide),
    Nat.mul_add_mod, s.colScrolled_eq_funnelShift n y (by omega), funnelShift_getLsbD _ _ _ (by omega)]
  split
  · rw [show (x + n) / 8 = x / 8 + n / 8 + 1 by omega, show 7 - (x + n) % 8 = 7 - x % 8 + (8 - n % 8) by omega]
  · rw [show (x + n) / 8 = x / 8 + n / 8 by omega,
      show 7 - (x + n) % 8 = 7 - x % 8 - (8 - (8 - n % 8)) by omega]

end Sys2Proof.Machine
end

section
/-! What every scroll does to the picture, and how two of them compose (`44_scroll.md` R190, R191, R194). -/

namespace Sys2Proof.Machine

/-- The bit `dx` pixels to the right of (x, y) and `dy` scanlines below it, background beyond the screen. -/
def State.movedBit (s : State) (dx dy x y : Nat) : Bool :=
  if x + dx < s.cfg.physW ∧ y + dy < s.cfg.physH then s.fbBit (s.cfg.lin (x + dx) (y + dy)) else s.backgroundBit

/-- In GREY1 the picture of `s` stands in `t` moved left by `dx` pixels and up by `dy` scanlines, the revealed pixels
are background, and the bytes beyond the extent are as they were. -/
structure State.PictureMoves (s t : State) (dx dy : Nat) : Prop where
  cfg : t.cfg = s.cfg
  fmt : t.fmt = s.fmt
  bits : ∀ x y, x < s.cfg.physW → y < s.cfg.physH → t.fbBit (s.cfg.lin x y) = s.movedBit dx dy x y
  beyond : ∀ a, s.cfg.extentBytes 1 ≤ a → t.fbByte a = s.fbByte a

/-- A rewrite of the extent moves the picture when the bytes it writes do. -/
theorem State.pictureMoves_writeExtent {s : State} (hc : s.cfg.legal = true) (hf : s.fmt = .grey1) {f : Nat → Byte}
    {dx dy : Nat} (h : ∀ x y, x < s.cfg.physW → y < s.cfg.physH → bitAt f (s.cfg.lin x y) = s.movedBit dx dy x y)
    (c : Code) : s.PictureMoves ((s.writeExtent f).done c) dx dy where
  cfg := rfl
  fmt := rfl
  bits x y hx hy := by
    have hend := (Config.lin_lt_mul_iff s.cfg hx).mpr hy
    rw [← Config.eight_mul_extentBytes_one hc] at hend
    rw [← h x y hx hy, State.fbBit, State.fbByte_done, State.fbByte_writeExtent_grey1 hf, if_pos (by omega), bitAt]
  beyond a ha := by rw [State.fbByte_done, State.fbByte_writeExtent_grey1 hf, if_neg (Nat.not_lt.mpr ha)]

section
variable {s : State} (hc : s.cfg.legal = true) (hf : s.fmt = .grey1)
include hc hf

theorem State.pictureMoves_rowScrolled (n : Nat) (c : Code) :
    s.PictureMoves ((s.writeExtent (s.rowScrolled n)).done c) 0 (n * s.cfg.cellH) :=
  State.pictureMoves_writeExtent hc hf (fun x y hx _ => by
    rw [State.bitAt_rowScrolled hc n hx]
    exact if_congr (by simp [hx]) rfl rfl) c

theorem State.pictureMoves_colScrolled (n : Nat) (c : Code) :
    s.PictureMoves ((s.writeExtent (s.colScrolled n)).done c) n 0 :=
  State.pictureMoves_writeExtent hc hf (fun x y hx hy => by
    rw [State.bitAt_colScrolled hc n y hx]
    exact if_congr (by simp [hy]) rfl rfl) c

/-- CLEAR moves the whole picture off the screen. -/
theorem exec_clear_pictureMoves {dx dy : Nat} (hout : s.cfg.physW ≤ dx ∨ s.cfg.physH ≤ dy) :
    ∃ t, exec .clear s = .next t ∧ s.PictureMoves t dx dy := by
  refine ⟨(s.fillExtent (s.fmt.trunc s.cfg.bg)).done .ok, rfl, ?_⟩
  rw [hf]
  refine State.pictureMoves_writeExtent hc hf (fun x y _ _ => ?_) .ok
  rw [State.movedBit, if_neg (by omega), hf]
  exact s.bitAt_backgroundByte _

end

/-- Pixels read as the bits do (R50). -/
theorem State.PictureMoves.pixRead {s t : State} {dx dy : Nat} (h : s.PictureMoves t dx dy) (hf : s.fmt = .grey1)
    {x y : Nat} (hx : x < s.cfg.physW) (hy : y < s.cfg.physH) : t.pixRead (s.cfg.lin x y) =
      if x + dx < s.cfg.physW ∧ y + dy < s.cfg.physH then s.pixRead (s.cfg.lin (x + dx) (y + dy))
      else Format.trunc .grey1 s.cfg.bg := by
  have hbit : ∀ L, s.pixRead L = (BitVec.ofBool (s.fbBit L)).setWidth 16 := State.pixRead_grey1 hf
  rw [State.pixRead_grey1 (h.fmt.trans hf), hbit, Format.trunc_grey1]
  refine (congrArg (fun b => (BitVec.ofBool b).setWidth 16) (h.bits x y hx hy)).trans ?_
  unfold State.movedBit
  split <;> rfl

/-- A move after a move is a move by the sums. -/
theorem State.PictureMoves.trans {s t u : State} {dx dy dx' dy' : Nat} (h : s.PictureMoves t dx dy)
    (h' : t.PictureMoves u dx' dy') : s.PictureMoves u (dx + dx') (dy + dy') where
  cfg := h'.cfg.trans h.cfg
  fmt := h'.fmt.trans h.fmt
  bits x y hx hy := by
    have hu := h'.bits x y (h.cfg ▸ hx) (h.cfg ▸ hy)
    rw [h.cfg] at hu
    rw [hu, State.movedBit, State.movedBit, State.backgroundBit, h.cfg]
    by_cases hin : x + dx' < s.cfg.physW ∧ y + dy' < s.cfg.physH
    · obtain ⟨hx', hy'⟩ := hin
      rw [if_pos ⟨hx', hy'⟩, h.bits _ _ hx' hy', State.movedBit, Nat.add_assoc x, Nat.add_assoc y, Nat.add_comm dx',
        Nat.add_comm dy']
    · rw [if_neg hin, if_neg (by omega)]
      rfl
  beyond a ha := (h'.beyond a (h.cfg ▸ ha)).trans (h.beyond a ha)

/-- The move determines what the buffer reads. -/
theorem State.PictureMoves.sameBuffer {s t u : State} {dx dy : Nat} (h : s.PictureMoves t dx dy)
    (h' : s.PictureMoves u dx dy) (hc : s.cfg.legal = true) : t.sameBuffer u := by
  intro a
  by_cases ha : a < s.cfg.extentBytes 1
  · refine State.fbByte_eq_of_bits fun k hk => ?_
    have hin : 8 * a + k < s.cfg.physH * s.cfg.physW := by rw [← Config.eight_mul_extentBytes_one hc]; omega
    obtain ⟨x, y, hx, hy, hA⟩ := Config.exists_lin hin
    rw [hA, h.bits x y hx hy, h'.bits x y hx hy]
  · rw [h.beyond a (Nat.le_of_not_lt ha), h'.beyond a (Nat.le_of_not_lt ha)]

/-! ## Commands that move the picture -/

/-- In GREY1 and configuration `c` the command completes and moves the picture, whatever the buffer holds. -/
def MovesPicture (c : Config) (i : Instr) (dx dy : Nat) : Prop :=
  ∀ s : State, s.cfg = c → s.fmt = .grey1 → ∃ t, exec i s = .next t ∧ s.PictureMoves t dx dy

section
variable {c : Config} (hc : c.legal = true)
include hc

theorem movesPicture_scrlr (n : Word) : MovesPicture c (.scrlr n) 0 (n.toNat * c.cellH) := by
  rintro s rfl hf
  rcases Nat.lt_or_ge n.toNat s.cfg.totalRows with hn | hn
  · exact ⟨_, State.scroll_rewrites _ hf hn, State.pictureMoves_rowScrolled hc hf _ _⟩
  · have hout := Nat.mul_le_mul_right s.cfg.cellH hn
    rw [Config.totalRows_mul_cellH hc] at hout
    rw [show exec (.scrlr n) s = exec .clear s from State.scroll_clears _ hf hn]
    exact exec_clear_pictureMoves hc hf (.inr hout)

theorem movesPicture_scrlc (n : Word) : MovesPicture c (.scrlc n) (n.toNat * c.cellW) 0 := by
  rintro s rfl hf
  rcases Nat.lt_or_ge n.toNat s.cfg.totalCols with hn | hn
  · exact ⟨_, State.scroll_rewrites _ hf hn, State.pictureMoves_colScrolled hc hf _ _⟩
  · have hout := Nat.mul_le_mul_right s.cfg.cellW hn
    rw [Config.totalCols_mul_cellW hc] at hout
    rw [show exec (.scrlc n) s = exec .clear s from State.scroll_clears _ hf hn]
    exact exec_clear_pictureMoves hc hf (.inl hout)

end

section
variable {c : Config} {i j m : Instr} {dx dy dx' dy' : Nat}

/-- A command after a command moves the picture by the sums. -/
theorem MovesPicture.seq (hi : MovesPicture c i dx dy) (hj : MovesPicture c j dx' dy') {s : State} (hs : s.cfg = c)
    (hf : s.fmt = .grey1) :
    ∃ t u, exec i s = .next t ∧ exec j t = .next u ∧ s.PictureMoves u (dx + dx') (dy + dy') := by
  obtain ⟨t, ht, hst⟩ := hi s hs hf
  obtain ⟨u, hu, htu⟩ := hj t (hst.cfg.trans hs) (hst.fmt.trans hf)
  exact ⟨t, u, ht, hu, hst.trans htu⟩

/-- A command k times in a row moves the picture k times as far. -/
theorem MovesPicture.times (hi : MovesPicture c i dx dy) (k : Nat) {s : State} (hs : s.cfg = c) (hf : s.fmt = .grey1) :
    ∃ t, execTimes i k s = .next t ∧ s.PictureMoves t (k * dx) (k * dy) := by
  induction k generalizing s with
  | zero =>
    refine ⟨s, rfl, rfl, rfl, fun x y hx hy => ?_, fun _ _ => rfl⟩
    rw [Nat.zero_mul, Nat.zero_mul, State.movedBit, if_pos ⟨hx, hy⟩]
    rfl
  | succ k ih =>
    obtain ⟨t, ht, hst⟩ := hi s hs hf
    obtain ⟨u, hu, htu⟩ := ih (hst.cfg.trans hs) (hst.fmt.trans hf)
    refine ⟨u, by rw [execTimes, ht]; exact hu, ?_⟩
    rw [Nat.add_one_mul, Nat.add_one_mul, Nat.add_comm _ dx, Nat.add_comm _ dy]
    exact hst.trans htu

variable {s : State} (hc : s.cfg.legal = true) (hf : s.fmt = .grey1)
include hc hf

/-- Two commands in a row leave the buffer of one that moves the picture by the sums. -/
theorem MovesPicture.seq_eq_sum (hi : MovesPicture s.cfg i dx dy) (hj : MovesPicture s.cfg j dx' dy')
    (hm : MovesPicture s.cfg m (dx + dx') (dy + dy')) :
    ∃ t u w, exec i s = .next t ∧ exec j t = .next u ∧ exec m s = .next w ∧ u.sameBuffer w := by
  obtain ⟨t, u, ht, hu, hsu⟩ := hi.seq hj rfl hf
  obtain ⟨w, hw, hsw⟩ := hm s rfl hf
  exact ⟨t, u, w, ht, hu, hw, hsu.sameBuffer hsw hc⟩

theorem MovesPicture.seq_comm (hi : MovesPicture s.cfg i dx dy) (hj : MovesPicture s.cfg j dx' dy') :
    ∃ t u t' u', exec i s = .next t ∧ exec j t = .next u ∧ exec j s = .next t' ∧ exec i t' = .next u' ∧
      u.sameBuffer u' := by
  obtain ⟨t, u, ht, hu, hsu⟩ := hi.seq hj rfl hf
  obtain ⟨t', u', ht', hu', hsu'⟩ := hj.seq hi rfl hf
  rw [Nat.add_comm dx', Nat.add_comm dy'] at hsu'
  exact ⟨t, u, t', u', ht, hu, ht', hu', hsu.sameBuffer hsu' hc⟩

theorem MovesPicture.times_eq_product {k : Nat} (hi : MovesPicture s.cfg i dx dy)
    (hm : MovesPicture s.cfg m (k * dx) (k * dy)) :
    ∃ t u, execTimes i k s = .next t ∧ exec m s = .next u ∧ t.sameBuffer u := by
  obtain ⟨t, ht, hst⟩ := hi.times k rfl hf
  obtain ⟨u, hu, hsu⟩ := hm s rfl hf
  exact ⟨t, u, ht, hu, hst.sameBuffer hsu hc⟩

end

end Sys2Proof.Machine
end

section
/-! The effect and the laws of SCRLR and SCRLC (`44_scroll.md` R190, R191, R194). -/

namespace Sys2Proof.Machine

/-- Settles O55: the bytes are those `rowScrolled` computes, and the pixels are its bits. -/
theorem rowScrollEffect : Obligations.RowScrollEffect := by
  unfold Obligations.RowScrollEffect
  refine ⟨fun d => decode_of_op (i := .scrlr d.w2), fun s n =>
    ⟨State.scroll_skips _, State.scroll_clears _, ?_⟩⟩
  intro hf hn keep
  have hkeep : keep ≤ s.cfg.extentBytes 1 := s.cfg.rows_mul_pitch_le (Nat.sub_le ..)
  have hbyte := State.fbByte_writeExtent_grey1 hf (s.rowScrolled n.toNat)
  refine ⟨_, State.scroll_rewrites _ hf hn, s.writeExtent_done_eq _ _, fun a ha => ?kept, fun a hlo hhi => ?revealed,
    fun a ha => ?beyond, fun hc x y hx hy => ?pixels⟩
  case kept => exact (hbyte a).trans ((if_pos (by omega)).trans (if_pos ha))
  case revealed => exact (hbyte a).trans ((if_pos hhi).trans ((if_neg (Nat.not_lt.mpr hlo)).trans s.backgroundByte_eq))
  case beyond => exact (hbyte a).trans (if_neg (Nat.not_lt.mpr ha))
  case pixels =>
    refine ((State.pictureMoves_rowScrolled hc hf _ _).pixRead hf hx hy).trans (if_congr ?_ rfl rfl)
    omega

/-- Settles O56: the pixels are the bits `colScrolled` computes within each scanline. -/
theorem columnScrollEffect : Obligations.ColumnScrollEffect := by
  unfold Obligations.ColumnScrollEffect
  refine ⟨fun d => decode_of_op (i := .scrlc d.w2), fun s n =>
    ⟨State.scroll_skips _, State.scroll_clears _, fun hf hn => ?_⟩⟩
  refine ⟨_, State.scroll_rewrites _ hf hn, s.writeExtent_done_eq _ _, fun a ha => ?beyond,
    fun hc x y hx hy => ?pixels⟩
  case beyond => exact (State.fbByte_writeExtent_grey1 hf _ a).trans (if_neg (Nat.not_lt.mpr ha))
  case pixels =>
    refine ((State.pictureMoves_colScrolled hc hf _ _).pixRead hf hx hy).trans (if_congr ?_ rfl rfl)
    omega

/-- Settles O57: every scroll moves the picture by a multiple of its count, and moves add up. -/
theorem scrollLaws : Obligations.ScrollLaws := by
  unfold Obligations.ScrollLaws
  intro s hc
  have hrow := movesPicture_scrlr hc
  have hcol := movesPicture_scrlc hc
  refine ⟨fun hf n => ⟨_, _, State.scroll_skips _ hf, State.scroll_skips _ hf, rfl, rfl⟩, fun hf =>
    ⟨fun n => State.scroll_clears _ hf, fun n => State.scroll_clears _ hf, fun k => ?rowTimes, fun k => ?colTimes,
      fun a c m hm => ?rowSum, fun a c m hm => ?colSum, fun a c => (hrow a).seq_comm hc hf (hcol c)⟩⟩
  case rowTimes => exact (hrow 1).times_eq_product hc hf (by simpa using hrow k)
  case colTimes => exact (hcol 1).times_eq_product hc hf (by simpa using hcol k)
  case rowSum => exact (hrow a).seq_eq_sum hc hf (hrow c) (by simpa [hm, Nat.add_mul] using hrow m)
  case colSum => exact (hcol a).seq_eq_sum hc hf (hcol c) (by simpa [hm, Nat.add_mul] using hcol m)

end Sys2Proof.Machine
end

section
/-! Skips and ILLEGAL (`60_exceptions.md` R211): the one shape of a completed command that ends in one of these codes. -/

namespace Sys2Proof.Machine

/-- The shapes of a completed command by the code they leave: only `done` alone leaves a code other than OK and
INIT_FAIL. -/
theorem exec_eq_done_or_last {i : Instr} {s t : State} (h : exec i s = .next t) :
    t = s.done t.last ∨ t.last = .ok ∨ t.last = .initFail := by
  rcases exec_cases h with ⟨_, -, rfl⟩ | ⟨_, -, -, rfl⟩ | ⟨_, -, rfl⟩ | ⟨_, -, rfl⟩ | ⟨_, _, _, _, -, rfl⟩ |
    ⟨_, _, _, _, _, -, -, rfl⟩ | ⟨_, _, _, _, _, -, -, rfl⟩ | ⟨-, -, rfl⟩
  · exact .inl rfl
  · exact .inr (.inl rfl)
  · exact .inr (.inl rfl)
  · exact .inr (.inl rfl)
  · exact .inr (.inl rfl)
  · exact .inr (.inl rfl)
  · exact .inr (.inl rfl)
  · exact .inr (.inr rfl)

/-- The same for a descriptor: one with a reserved opcode ends in `done(ILLEGAL)` (R88). -/
theorem State.runDescriptor_eq_done_or_last {d : Descriptor} {s t : State} (h : s.runDescriptor d = .next t) :
    t = s.done t.last ∨ t.last = .ok ∨ t.last = .initFail := by
  rcases State.runDescriptor_cases h with ⟨_, -, he⟩ | rfl
  · exact exec_eq_done_or_last he
  · exact .inl rfl

/-- Settles O25: a skip and ILLEGAL are neither OK nor INIT_FAIL, so the descriptor did nothing but `done`. -/
theorem skipIsTotal : Obligations.SkipIsTotal := by
  unfold Obligations.SkipIsTotal
  intro d s t h hlast
  rcases State.runDescriptor_eq_done_or_last h with hdone | hok | hfail
  · exact hdone
  · simp [hok] at hlast
  · simp [hfail] at hlast

end Sys2Proof.Machine
end

section
/-! Reset (`70_reset_and_hazards.md`): the values it leaves and the idle machine (R230), and what a command that a reset
abandons leaves behind (R232, log entry 15). -/

namespace Sys2Proof.Machine

/-! ## After reset (R34, R230) -/

/-- With nothing presented the machine holds its state (R221, log entry 3). -/
theorem step_of_idle {s : State} (hl : s.cfg.legal = true) (hi : s.inputs = []) : step s = .next s := by
  rw [step, if_pos hl, hi]

theorem State.readReg_atReset (cfg : Config) :
    (State.atReset cfg).readReg 0 = some 0 ∧ (State.atReset cfg).readReg 1 = some 0 ∧
    (State.atReset cfg).readReg 2 = some 0 ∧
    (State.atReset cfg).readReg 3 = some (halves (BitVec.ofNat 16 cfg.physH) (BitVec.ofNat 16 cfg.physW)) ∧
    (State.atReset cfg).readReg 5 = some 0 :=
  ⟨congrArg some (show 0#16 ++ Code.ok.toByte ++ 0#7 ++ BitVec.ofBool false = 0 by decide), rfl,
    congrArg some (show halves 0 0 = 0 by decide), rfl, rfl⟩

/-- Settles O8: the words are those of the reset values, and with an empty plan the machine idles. -/
theorem resetValues : Obligations.ResetValues := by
  unfold Obligations.ResetValues
  intro cfg
  obtain ⟨hstatus, hformat, hoffset, hsize, hresult⟩ := State.readReg_atReset cfg
  exact ⟨hstatus, hformat, hoffset, hsize, hresult, rfl, rfl, rfl, rfl, rfl, fun hl => step_of_idle hl rfl⟩

/-- After a reset every buffer byte is the free value numbered by that reset (R231). -/
theorem State.fbByte_afterReset (s : State) (a : Nat) :
    s.afterReset.fbByte a = Config.powerOnByte (s.epoch + 1) a := rfl

/-! ## A command that a reset abandons (R232, log entry 15) -/

/-- The descriptor is an INIT that requests bring-up (R111): its format code is defined and the machine is not yet
initialised. -/
def State.asksBringUp (s : State) (d : Descriptor) : Prop := d.op = 0x01 ∧ d.a8.toNat ≤ 4 ∧ s.inited = false

section
variable {s t : State} {d : Descriptor}

theorem State.runDescriptor_of_decode {i : Instr} (h : decode d = .ok i) : s.runDescriptor d = exec i s := by
  rw [State.runDescriptor, h]

theorem State.runDescriptor_init (h : d.op = 0x01) :
    s.runDescriptor d = exec (.init d.a8 d.x d.y d.value d.vsh) s :=
  State.runDescriptor_of_decode (decode_of_op (i := .init d.a8 d.x d.y d.value d.vsh) h)

theorem State.runDescriptor_completes (h : ∀ i, decode d = .ok i → s.inBuffer i = true) :
    ∃ t, s.runDescriptor d = .next t := by
  cases hd : decode d with
  | ok i =>
    rw [State.runDescriptor_of_decode hd]
    exact exec_completes_of_inBuffer (h i hd)
  | error e => exact ⟨s.reservedOpcode, by rw [State.runDescriptor, hd]⟩

theorem State.abandon_unreached (s : State) (d : Descriptor) : s.abandon d false = .next s.afterReset := rfl

theorem State.abandon_of_next (h : s.runDescriptor d = .next t) :
    s.abandon d true = .next (State.afterReset { t with rsp := s.rsp }) := by
  rw [State.abandon, if_pos rfl, h]

theorem State.abandon_of_fault {f : Fault} (h : s.runDescriptor d = .fault f) : s.abandon d true = .fault f := by
  rw [State.abandon, if_pos rfl, h]

/-- Whatever the transport answers, of an INIT that asked for bring-up only the request survives. -/
theorem State.abandon_of_asksBringUp (h : s.asksBringUp d) :
    s.abandon d true = .next s.requestBringUp.afterReset := by
  obtain ⟨hop, hcode, hinited⟩ := h
  obtain ⟨f, hf, -⟩ := Option.map_eq_some_iff.mp (Format.bpp_ofCode hcode)
  have hrun := State.runDescriptor_init (s := s) hop
  cases hanswer : s.bringUpAnswer with
  | true => exact State.abandon_of_next (hrun.trans (exec_init_of_bringUp _ _ _ _ s hf hinited hanswer))
  | false => exact State.abandon_of_next (hrun.trans (exec_init_of_bringUp_fails _ _ _ _ s hf hinited hanswer))

theorem State.abandon_of_reserved_format (hop : d.op = 0x01) (hcode : 4 < d.a8.toNat) :
    s.abandon d true = .next s.afterReset := by
  have hrun : s.runDescriptor d = .next (s.done .illegal) :=
    (State.runDescriptor_init hop).trans (exec_init_of_reserved _ _ _ _ s (Format.ofCode_reserved hcode))
  exact (State.abandon_of_next hrun).trans rfl

/-- A command that completes and asks for no bring-up leaves what a reset in its place leaves. -/
theorem State.abandon_of_not_asksBringUp (h : ¬ s.asksBringUp d)
    (hinside : ∀ i, decode d = .ok i → s.inBuffer i = true) : s.abandon d true = .next s.afterReset := by
  obtain ⟨t, ht⟩ := State.runDescriptor_completes hinside
  have habandon := State.abandon_of_next ht
  rcases State.abandon_next habandon with heq | ⟨-, hinited, ⟨i, hd, ho⟩, -⟩
  · rw [habandon, heq]
  · have hop : d.op = 0x01 := (opcode_of_decode hd).symm.trans ho
    have hcode : 4 < d.a8.toNat := Nat.lt_of_not_le fun hle => h ⟨hop, hle, hinited⟩
    exact State.abandon_of_reserved_format hop hcode

theorem State.abandon_faults_of_not_inBuffer {i : Instr} (hd : decode d = .ok i) (h : s.inBuffer i = false) :
    s.abandon d true = .fault .outOfBuffer :=
  State.abandon_of_fault ((State.runDescriptor_of_decode hd).trans (exec_faults_of_not_inBuffer h))

end

/-- Settles O58: how far the command had got, whether it asks for bring-up, and whether it stays in the buffer decide
what the reset that abandons it leaves. -/
theorem resetDuringCommandAbandons : Obligations.ResetDuringCommandAbandons := by
  unfold Obligations.ResetDuringCommandAbandons
  intro s d reached rest hl hi
  have hstep : step s = State.abandon { s with inputs := rest } d reached := step_of_inputs_cons hl hi
  rw [hstep]
  refine ⟨State.fbByte_afterReset { s with inputs := rest }, ?unreached, ?asks, ?inside, ?outside⟩
  case unreached => rintro rfl; exact State.abandon_unreached _ d
  case asks => rintro rfl hasks; exact State.abandon_of_asksBringUp hasks
  case inside => rintro rfl hn hinside; exact State.abandon_of_not_asksBringUp hn hinside
  case outside => rintro rfl i hd hout; exact State.abandon_faults_of_not_inBuffer hd hout

end Sys2Proof.Machine
end

section
/-! What the machine does with no input and with a reset between commands (`60_exceptions.md` R221,
`70_reset_and_hazards.md` R230, R231). -/

namespace Sys2Proof.Machine

/-- Settles O13: it is `step_of_idle`. -/
theorem idleHoldsState : Obligations.IdleHoldsState := by
  unfold Obligations.IdleHoldsState
  exact fun _ => step_of_idle

/-- Settles O9: the step takes the reset off the plan and answers `State.afterReset`, which lists no written byte. -/
theorem resetInputResets : Obligations.ResetInputResets := by
  unfold Obligations.ResetInputResets
  intro s rest hl hi
  have hstep : step s = .next (State.afterReset { s with inputs := rest }) := step_of_inputs_cons hl hi
  exact ⟨_, hstep, rfl, State.fbByte_afterReset { s with inputs := rest }⟩

end Sys2Proof.Machine
end

section
/-! CLEAR is FILL with the background value (`42_fill.md` R140). -/

namespace Sys2Proof.Machine

/-- Settles O42: by definition both are `State.fillExtent` with the truncated background value. -/
theorem clearIsFillOfBackground : Obligations.ClearIsFillOfBackground := by
  unfold Obligations.ClearIsFillOfBackground
  exact fun _ => rfl

end Sys2Proof.Machine
end

section
/-! The extents of a legal configuration (`00_scope.md` R11, `44_scroll.md` R193). -/

namespace Sys2Proof

/-- Two bytes per pixel: the extent of the widest format is the whole buffer, in every configuration. -/
theorem Config.extentBytes_sixteen (c : Config) : c.extentBytes 16 = c.fbLen := by
  unfold Config.extentBytes Config.fbLen
  omega

/-- The GREY1 scanlines make up the GREY1 extent. -/
theorem Config.physH_mul_rby {c : Config} (hc : c.legal = true) : c.physH * c.rby = c.extentBytes 1 := by
  refine Nat.eq_of_mul_eq_mul_left (show 0 < 8 by decide) ?_
  rw [Config.eight_mul_extentBytes_one hc, Nat.mul_left_comm, Config.eight_mul_rby hc]

/-- The GREY1 cell rows make up the GREY1 extent. -/
theorem Config.totalRows_mul_pitch {c : Config} (hc : c.legal = true) : c.totalRows * c.pitch = c.extentBytes 1 := by
  refine Nat.eq_of_mul_eq_mul_left (show 0 < 8 by decide) ?_
  rw [Config.eight_mul_extentBytes_one hc, Nat.mul_left_comm, Config.eight_mul_pitch hc, ← Nat.mul_assoc,
    Config.totalRows_mul_cellH hc]

/-- Settles O31: the scanlines and the cell rows are two ways to count the bytes of the GREY1 extent. -/
theorem extentGeometry : Obligations.ExtentGeometry := by
  unfold Obligations.ExtentGeometry
  intro c hc
  have hlines := Config.physH_mul_rby hc
  have hrows := Config.totalRows_mul_pitch hc
  exact ⟨fun f => ⟨Config.extentBytes_mul_eight hc f, c.extentBytes_le_fbLen f⟩, c.extentBytes_sixteen,
    hrows.trans hlines.symm, hlines, Config.totalRows_mul_cellH hc, Config.totalCols_mul_cellW hc⟩

end Sys2Proof
end

section
/-! The source's ten-pixel line in `CFG_T` (`42_fill.md` R145): row 5 begins at byte 10, so the line is all of byte 10
and the upper two bits of byte 11. -/

namespace Sys2Proof.Machine

theorem State.linIndex_row_five {s : State} (hc : s.cfg = Config.cfgT) (hcol : s.vsCol = 0) (hrow : s.vsRow = 0) :
    s.linIndex 0 5 = 80 := by
  rw [State.linIndex, State.px, State.py, hc, hcol, hrow]
  rfl

theorem mergeByte_full (old d : Byte) : mergeByte old 0xFF d = d := rfl

/-- A merge under the upper two bits with eight set bits sets those two. -/
theorem mergeByte_upper_two (old : Byte) : mergeByte old 0xC0 0xFF = (old &&& 0x3F) ||| 0xC0 := rfl

/-- Settles O45: the line's bytes are those of `spanEffect`, under a full mask and under the mask of the upper two bits;
its pixels are those of `spanFillsPixels`. -/
theorem tenPixelLine : Obligations.TenPixelLine := by
  unfold Obligations.TenPixelLine
  intro s hc hf hcol hrow
  have hL := State.linIndex_row_five hc hcol hrow
  have hlast : s.fmt.lastByte (s.linIndex 0 5) (10 : Word).toNat < s.cfg.fbLen := by
    rw [hL, hf, hc]
    decide
  refine ⟨?bytes, fun v => ?pixels⟩
  case bytes =>
    obtain ⟨-, hspan⟩ := spanEffect
    obtain ⟨-, hwrites⟩ := hspan s 0 5 1 10
    obtain ⟨t, ht, -, hsub, -, -, hframe⟩ := hwrites (by decide) hlast
    rw [hL, hf] at hsub hframe
    refine ⟨t, ht, ?_, ?_, fun a h10 h11 => hframe a ?_⟩
    · exact (hsub (by decide) 10 (by decide) (by decide)).trans (mergeByte_full ..)
    · exact (hsub (by decide) 11 (by decide) (by decide)).trans (mergeByte_upper_two _)
    · have hplace : Format.pixByte .grey1 80 = 10 ∧ Format.lastByte .grey1 80 (10 : Word).toNat = 11 := by decide
      omega
  case pixels =>
    obtain ⟨t, ht, hin, hout⟩ := spanFillsPixels s 0 5 v 10 (by decide) hlast
    rw [hL, show (10 : Word).toNat = 10 from rfl] at hin hout
    have hlin : ∀ x, s.cfg.lin x 5 = 80 + x := fun x => by rw [hc]; rfl
    rw [hf] at hin
    simp only [hlin]
    exact ⟨t, ht, fun x hx => hin _ (by omega) (by omega), fun L hLout => hout L (by omega)⟩

end Sys2Proof.Machine
end

section
/-! BLITR with equal pattern and replacement is BLIT (`43_blit.md` R161, R173): the substitution stage then gives back
every source byte, and a blit depends on its stage through the source bytes alone. -/

namespace Sys2Proof

/-- Every bit of a byte of a sub-byte format is a bit of one of its fields. -/
theorem Format.exists_field {f : Format} (hb : f.bpp < 8) {i : Nat} (hi : i < 8) :
    ∃ m n, m < f.ppb ∧ n < f.bpp ∧ 8 - f.bpp - m * f.bpp + n = i := by
  refine ⟨(7 - i) / f.bpp, i % f.bpp, ?_⟩
  cases f <;> simp only [Format.bpp, Format.ppb] at hb ⊢ <;> omega

theorem Format.field_getLsbD (f : Format) (raw : Byte) (m : Nat) {n : Nat} (hn : n < f.bpp) :
    (f.field raw m).getLsbD n = raw.getLsbD (8 - f.bpp - m * f.bpp + n) := by
  rw [Format.field, BitVec.getLsbD_and, Format.pixMask_getLsbD, decide_eq_true hn, Bool.and_true,
    BitVec.getLsbD_ushiftRight, BitVec.getLsbD_setWidth]
  by_cases h : 8 - f.bpp - m * f.bpp + n < 16
  · rw [decide_eq_true h, Bool.true_and]
  · rw [decide_eq_false h, Bool.false_and, BitVec.getLsbD_of_ge _ _ (by omega)]

end Sys2Proof

namespace Sys2Proof.Machine

/-! ## Substituting a value for itself -/

@[simp] theorem Stage.apply_subst_self (p q : Half) : Stage.apply (.subst p p) q = q :=
  ite_eq_right_iff.mpr Eq.symm

theorem Stage.fits_subst_self (f : Format) (p : Half) : (Stage.subst p p).Fits f := fun q hq => by
  rw [Stage.apply_subst_self, hq]

/-- Field by field, the byte is put together again. -/
theorem Stage.onFields_subst_self {f : Format} (hb : f.bpp < 8) (p : Half) (raw : Byte) :
    Stage.onFields (.subst p p) f raw = raw := by
  refine BitVec.eq_of_getLsbD_eq fun i hi => ?_
  obtain ⟨m, n, hm, hn, rfl⟩ := Format.exists_field hb hi
  rw [Stage.onFields_field hb (Stage.fits_subst_self f p) raw hm hn, Stage.apply_subst_self, f.field_getLsbD raw m hn]

/-- Each source byte of a tile is as in tile space, padding bits included. -/
theorem State.srcByte_subst_self (s : State) (T : Tile) (p : Half) (j k : Nat) :
    s.srcByte T (.subst p p) j k = s.srcByte T .identity j k := by
  rcases Nat.lt_or_ge k T.pitch with hk | hk
  · rw [s.srcByte_identity j hk]
    by_cases hb : T.fmt.bpp < 8
    · rw [s.srcByte_subst_of_subByte p p j hk hb, Stage.onFields_subst_self hb]
    · rcases Format.eq_of_byte hb with h | h
      · rw [s.srcByte_subst_indexed8 p p j hk h, Stage.apply_subst_self, State.tilePix, h]
        exact BitVec.setWidth_setWidth_of_le _ (by decide)
      · rw [s.srcByte_subst_rgb565 p p j hk h, Stage.apply_subst_self, State.tilePix, h]
        rcases Nat.mod_two_eq_zero_or_one k with he | ho
        · rw [he, show 2 * (k / 2) = k by omega]
          exact BitVec.extractLsb'_append_eq_right
        · rw [ho, show 2 * (k / 2) + 1 = k by omega]
          exact BitVec.extractLsb'_append_eq_left
  · rw [s.srcByte_of_beyond _ j hk, s.srcByte_of_beyond _ j hk]

/-! ## A blit sees its stage through the source bytes -/

section
variable {g g' : Stage} (h : ∀ (s : State) (T : Tile) (j k : Nat), s.srcByte T g j k = s.srcByte T g' j k)
include h

theorem State.blitRow_stage_congr (s : State) (T : Tile) (px py j : Nat) :
    s.blitRow T g px py j = s.blitRow T g' px py j := by
  simp only [State.blitRow, State.alignMux, h]

theorem State.blitRows_stage_congr (s : State) (T : Tile) (px py n : Nat) :
    s.blitRows T g px py n = s.blitRows T g' px py n := by
  induction n with
  | zero => rfl
  | succ n ih => rw [State.blitRows, State.blitRows, ih, State.blitRow_stage_congr h]

theorem State.blit_stage_congr (s : State) (x y : Half) (side tfmt : Byte) (ptr : Word) :
    s.blit x y side tfmt ptr g = s.blit x y side tfmt ptr g' := by
  simp only [State.blit, State.blitRows_stage_congr h]

end

/-- Settles O49: the replacement is the pattern, and a stage that substitutes a value for itself changes no byte. -/
theorem blitrEqualPatternIsBlit : Obligations.BlitrEqualPatternIsBlit := by
  unfold Obligations.BlitrEqualPatternIsBlit
  intro s x y side tfmt ptr pat repl heq
  calc exec (.blitr x y side tfmt ptr pat repl) s
      = s.blit x y side tfmt ptr (.subst (s.fmt.trunc pat) (s.fmt.trunc repl)) := rfl
    _ = s.blit x y side tfmt ptr (.subst (s.fmt.trunc pat) (s.fmt.trunc pat)) := by rw [heq]
    _ = s.blit x y side tfmt ptr .identity :=
      State.blit_stage_congr (fun u T j k => u.srcByte_subst_self T _ j k) s x y side tfmt ptr
    _ = exec (.blit x y side tfmt ptr) s := rfl

end Sys2Proof.Machine
end
